-- ==== Sys2Proof/Word.lean ====
section
/-! DEFINITION. The widths of the spec's values (spec/00_scope.md R6): every value is an unsigned number of a stated width,
bit 0 is the least significant bit. -/

namespace Sys2Proof

/-- An 8-bit value: a register, a memory cell, a timer, an immediate `NN`. -/
abbrev Byte := BitVec 8

/-- A 16-bit value: an opcode, `pc`, `i`, a stack entry. -/
abbrev Word := BitVec 16

/-- A 12-bit immediate address `NNN`. -/
abbrev Addr := BitVec 12

/-- A register number `X` or `Y`: all 16 values name a register (spec/30_encoding.md R53). -/
abbrev Reg := Fin 16

/-- A key number 0x0 to 0xF (spec/10_state.md R21). -/
abbrev Key := Fin 16

/-- `VF`, the register the flag writes go to (spec/10_state.md R12). -/
abbrev vf : Reg := 15

end Sys2Proof
end

