-- ==== Sys2Proof/Config.lean ====
section
/-! DEFINITION. What the environment supplies under no law: the random bytes of `CXNN`. -/

namespace Sys2Proof

/-- `draw8()` (spec/45_keys_timers_random.md R126, spec/93_implementation_defined.md U11): the byte the `rnd` input shows at
the n-th executed `CXNN` of the run. It has no body on purpose: nothing can be proved of its values, so what is proved
holds for every sequence of draws. DESIGN CHOICE, safe: notes/assumptions/1.md. -/
opaque Config.rnd : Nat → Byte

end Sys2Proof
end

