-- ==== Sys2Proof/Syntax.lean ====
section
/-! DEFINITION. The instructions: one constructor per row of spec/opcode_table.json (spec/30_encoding.md R62), with the operand
fields of the row's format (R51, R52), and the mnemonic of each row. -/

namespace Sys2Proof

/-- One constructor per row of the opcode table. Bits a row does not inspect are no operands and are not kept
(notes/assumptions/9.md); the no-op keeps the word it stands for. -/
inductive Instr where
  /-- `00E0` CLS -/
  | cls
  /-- `00EE` RET -/
  | ret
  /-- `1NNN` JP NNN -/
  | jp (nnn : Addr)
  /-- `2NNN` CALL NNN -/
  | call (nnn : Addr)
  /-- `3XNN` SE Vx, NN -/
  | seImm (x : Reg) (nn : Byte)
  /-- `4XNN` SNE Vx, NN -/
  | sneImm (x : Reg) (nn : Byte)
  /-- `5XY0` SE Vx, Vy -/
  | seReg (x y : Reg)
  /-- `6XNN` LD Vx, NN -/
  | ldImm (x : Reg) (nn : Byte)
  /-- `7XNN` ADD Vx, NN -/
  | addImm (x : Reg) (nn : Byte)
  /-- `8XY0` LD Vx, Vy -/
  | ldReg (x y : Reg)
  /-- `8XY1` OR Vx, Vy -/
  | orReg (x y : Reg)
  /-- `8XY2` AND Vx, Vy -/
  | andReg (x y : Reg)
  /-- `8XY3` XOR Vx, Vy -/
  | xorReg (x y : Reg)
  /-- `8XY4` ADD Vx, Vy -/
  | addReg (x y : Reg)
  /-- `8XY5` SUB Vx, Vy -/
  | subReg (x y : Reg)
  /-- `8XY6` SHR Vx, Vy -/
  | shrReg (x y : Reg)
  /-- `8XY7` SUBN Vx, Vy -/
  | subnReg (x y : Reg)
  /-- `8XYE` SHL Vx, Vy -/
  | shlReg (x y : Reg)
  /-- `9XY0` SNE Vx, Vy -/
  | sneReg (x y : Reg)
  /-- `ANNN` LD I, NNN -/
  | ldI (nnn : Addr)
  /-- `BNNN` JP V0, NNN -/
  | jpV0 (nnn : Addr)
  /-- `CXNN` RND Vx, NN -/
  | rnd (x : Reg) (nn : Byte)
  /-- `DXYN` DRW Vx, Vy, N; `n` is the sprite height, 0 to 15 -/
  | drw (x y : Reg) (n : Fin 16)
  /-- `EX9E` SKP Vx -/
  | skp (x : Reg)
  /-- `EXA1` SKNP Vx -/
  | sknp (x : Reg)
  /-- `FX07` LD Vx, DT -/
  | ldFromDelay (x : Reg)
  /-- `FX0A` LD Vx, K -/
  | ldKey (x : Reg)
  /-- `FX15` LD DT, Vx -/
  | ldDelay (x : Reg)
  /-- `FX18` LD ST, Vx -/
  | ldSound (x : Reg)
  /-- `FX1E` ADD I, Vx -/
  | addI (x : Reg)
  /-- `FX29` LD F, Vx -/
  | ldFont (x : Reg)
  /-- `FX33` LD B, Vx -/
  | ldBcd (x : Reg)
  /-- `FX55` LD [I], Vx; `x` is the last register stored -/
  | storeRegs (x : Reg)
  /-- `FX65` LD Vx, [I]; `x` is the last register loaded -/
  | loadRegs (x : Reg)
  /-- NOP: the unrecognised word `w` (spec/40_step_cycle.md R75) -/
  | nop (w : Word)
  deriving DecidableEq, Repr

/-- The mnemonic of the instruction's row, as spec/opcode_table.json spells it. -/
def Instr.mnemonic : Instr → String
  | .cls => "CLS"
  | .ret => "RET"
  | .jp _ => "JP_NNN"
  | .call _ => "CALL_NNN"
  | .seImm _ _ => "SE_Vx__NN"
  | .sneImm _ _ => "SNE_Vx__NN"
  | .seReg _ _ => "SE_Vx__Vy"
  | .ldImm _ _ => "LD_Vx__NN"
  | .addImm _ _ => "ADD_Vx__NN"
  | .ldReg _ _ => "LD_Vx__Vy"
  | .orReg _ _ => "OR_Vx__Vy"
  | .andReg _ _ => "AND_Vx__Vy"
  | .xorReg _ _ => "XOR_Vx__Vy"
  | .addReg _ _ => "ADD_Vx__Vy"
  | .subReg _ _ => "SUB_Vx__Vy"
  | .shrReg _ _ => "SHR_Vx__Vy"
  | .subnReg _ _ => "SUBN_Vx__Vy"
  | .shlReg _ _ => "SHL_Vx__Vy"
  | .sneReg _ _ => "SNE_Vx__Vy"
  | .ldI _ => "LD_I__NNN"
  | .jpV0 _ => "JP_V0__NNN"
  | .rnd _ _ => "RND_Vx__NN"
  | .drw _ _ _ => "DRW_Vx__Vy__N"
  | .skp _ => "SKP_Vx"
  | .sknp _ => "SKNP_Vx"
  | .ldFromDelay _ => "LD_Vx__DT"
  | .ldKey _ => "LD_Vx__K"
  | .ldDelay _ => "LD_DT__Vx"
  | .ldSound _ => "LD_ST__Vx"
  | .addI _ => "ADD_I__Vx"
  | .ldFont _ => "LD_F__Vx"
  | .ldBcd _ => "LD_B__Vx"
  | .storeRegs _ => "LD__I___Vx"
  | .loadRegs _ => "LD_Vx___I"
  | .nop _ => "NOP"

end Sys2Proof
end

