-- ==== Sys2Proof/WellFormed.lean ====
section
/-! DEFINITION. The opcode map of spec/30_encoding.md R62 as a table of masks, and the check that an instruction term stands for
some word: a no-op must carry a word that no row of the map matches. Every other field is legal at every value (R53). -/

namespace Sys2Proof

/-- A row of the opcode map: a word selects it when its bits under `mask` are `bits`. -/
structure OpRow where
  mnemonic : String
  mask : Word
  bits : Word
  deriving DecidableEq, Repr

def OpRow.selects (r : OpRow) (w : Word) : Bool := w &&& r.mask == r.bits

/-- Families 0 to 7 of the opcode map. -/
def opcodeMapLow : List OpRow :=
  [⟨"CLS", 0xF0FF, 0x00E0⟩, ⟨"RET", 0xF0FF, 0x00EE⟩, ⟨"JP_NNN", 0xF000, 0x1000⟩, ⟨"CALL_NNN", 0xF000, 0x2000⟩,
   ⟨"SE_Vx__NN", 0xF000, 0x3000⟩, ⟨"SNE_Vx__NN", 0xF000, 0x4000⟩, ⟨"SE_Vx__Vy", 0xF000, 0x5000⟩,
   ⟨"LD_Vx__NN", 0xF000, 0x6000⟩, ⟨"ADD_Vx__NN", 0xF000, 0x7000⟩]

/-- Family 8 of the opcode map. -/
def opcodeMapAlu : List OpRow :=
  [⟨"LD_Vx__Vy", 0xF00F, 0x8000⟩, ⟨"OR_Vx__Vy", 0xF00F, 0x8001⟩, ⟨"AND_Vx__Vy", 0xF00F, 0x8002⟩,
   ⟨"XOR_Vx__Vy", 0xF00F, 0x8003⟩, ⟨"ADD_Vx__Vy", 0xF00F, 0x8004⟩, ⟨"SUB_Vx__Vy", 0xF00F, 0x8005⟩,
   ⟨"SHR_Vx__Vy", 0xF00F, 0x8006⟩, ⟨"SUBN_Vx__Vy", 0xF00F, 0x8007⟩, ⟨"SHL_Vx__Vy", 0xF00F, 0x800E⟩]

/-- Families 9 to E of the opcode map. -/
def opcodeMapHigh : List OpRow :=
  [⟨"SNE_Vx__Vy", 0xF000, 0x9000⟩, ⟨"LD_I__NNN", 0xF000, 0xA000⟩, ⟨"JP_V0__NNN", 0xF000, 0xB000⟩,
   ⟨"RND_Vx__NN", 0xF000, 0xC000⟩, ⟨"DRW_Vx__Vy__N", 0xF000, 0xD000⟩, ⟨"SKP_Vx", 0xF0FF, 0xE09E⟩,
   ⟨"SKNP_Vx", 0xF0FF, 0xE0A1⟩]

/-- Family F of the opcode map. -/
def opcodeMapMisc : List OpRow :=
  [⟨"LD_Vx__DT", 0xF0FF, 0xF007⟩, ⟨"LD_Vx__K", 0xF0FF, 0xF00A⟩, ⟨"LD_DT__Vx", 0xF0FF, 0xF015⟩,
   ⟨"LD_ST__Vx", 0xF0FF, 0xF018⟩, ⟨"ADD_I__Vx", 0xF0FF, 0xF01E⟩, ⟨"LD_F__Vx", 0xF0FF, 0xF029⟩,
   ⟨"LD_B__Vx", 0xF0FF, 0xF033⟩, ⟨"LD__I___Vx", 0xF0FF, 0xF055⟩, ⟨"LD_Vx___I", 0xF0FF, 0xF065⟩]

/-- The complete map: 34 rows (R62). -/
def opcodeMap : List OpRow := opcodeMapLow ++ opcodeMapAlu ++ opcodeMapHigh ++ opcodeMapMisc

/-- Some row of the map selects the word; every other word is the no-op (R60). -/
def recognised (w : Word) : Bool := opcodeMap.any (fun r => r.selects w)

/-- An instruction term stands for a word of its row: only the no-op's word can be wrong. -/
def Instr.wellFormed : Instr → Bool
  | .nop w => !recognised w
  | _ => true

abbrev Instr.WellFormed (i : Instr) : Prop := i.wellFormed = true

end Sys2Proof
end

