-- ==== Sys2Proof/Decode.lean ====
section
/-! DEFINITION. The decoder (spec/30_encoding.md R50 to R61), a pure total function of the 16-bit opcode in the two levels of R54;
the byte-level decoder over it (big-endian, spec/20_memory.md R32); and the encoder, written from the formats of R52. -/

namespace Sys2Proof

/-! The fields of the opcode word (R51). -/

/-- `op[15:12]`, the family nibble. -/
def opFamily (w : Word) : BitVec 4 := w.extractLsb' 12 4

/-- `X = op[11:8]`. -/
def opX (w : Word) : Reg := (w.extractLsb' 8 4).toFin

/-- `Y = op[7:4]`. -/
def opY (w : Word) : Reg := (w.extractLsb' 4 4).toFin

/-- `N = op[3:0]`. -/
def opN (w : Word) : BitVec 4 := w.extractLsb' 0 4

/-- `NN = op[7:0]`. -/
def opNN (w : Word) : Byte := w.extractLsb' 0 8

/-- `NNN = op[11:0]`. -/
def opNNN (w : Word) : Addr := w.extractLsb' 0 12

/-- Family 0 (R55): the low byte selects; `op[11:8]` is not inspected. -/
def decodeFamily0 (w : Word) : Instr :=
  match opNN w with
  | 0xE0#8 => .cls
  | 0xEE#8 => .ret
  | _ => .nop w

/-- Family 8 (R56): the low nibble selects. -/
def decodeFamily8 (w : Word) : Instr :=
  match opN w with
  | 0x0#4 => .ldReg (opX w) (opY w)
  | 0x1#4 => .orReg (opX w) (opY w)
  | 0x2#4 => .andReg (opX w) (opY w)
  | 0x3#4 => .xorReg (opX w) (opY w)
  | 0x4#4 => .addReg (opX w) (opY w)
  | 0x5#4 => .subReg (opX w) (opY w)
  | 0x6#4 => .shrReg (opX w) (opY w)
  | 0x7#4 => .subnReg (opX w) (opY w)
  | 0xE#4 => .shlReg (opX w) (opY w)
  | _ => .nop w

/-- Family E (R57): the low byte selects. -/
def decodeFamilyE (w : Word) : Instr :=
  match opNN w with
  | 0x9E#8 => .skp (opX w)
  | 0xA1#8 => .sknp (opX w)
  | _ => .nop w

/-- Family F (R58): the low byte selects. -/
def decodeFamilyF (w : Word) : Instr :=
  match opNN w with
  | 0x07#8 => .ldFromDelay (opX w)
  | 0x0A#8 => .ldKey (opX w)
  | 0x15#8 => .ldDelay (opX w)
  | 0x18#8 => .ldSound (opX w)
  | 0x1E#8 => .addI (opX w)
  | 0x29#8 => .ldFont (opX w)
  | 0x33#8 => .ldBcd (opX w)
  | 0x55#8 => .storeRegs (opX w)
  | 0x65#8 => .loadRegs (opX w)
  | _ => .nop w

/-- The decoder (R54, R59): level 1 on the family nibble, level 2 in families 0, 8, E and F only. -/
def decode (w : Word) : Instr :=
  match opFamily w with
  | 0x0#4 => decodeFamily0 w
  | 0x1#4 => .jp (opNNN w)
  | 0x2#4 => .call (opNNN w)
  | 0x3#4 => .seImm (opX w) (opNN w)
  | 0x4#4 => .sneImm (opX w) (opNN w)
  | 0x5#4 => .seReg (opX w) (opY w)
  | 0x6#4 => .ldImm (opX w) (opNN w)
  | 0x7#4 => .addImm (opX w) (opNN w)
  | 0x8#4 => decodeFamily8 w
  | 0x9#4 => .sneReg (opX w) (opY w)
  | 0xA#4 => .ldI (opNNN w)
  | 0xB#4 => .jpV0 (opNNN w)
  | 0xC#4 => .rnd (opX w) (opNN w)
  | 0xD#4 => .drw (opX w) (opY w) (opN w).toFin
  | 0xE#4 => decodeFamilyE w
  | _ => decodeFamilyF w

/-- The opcode of two fetched bytes: the byte at the lower address is `op[15:8]` (spec/20_memory.md R32). -/
def joinBytes (hi lo : Byte) : Word := hi ++ lo

/-- Why bytes hold no instruction: every word decodes, so the only reason is that a byte is missing. -/
inductive Reject where
  /-- fewer than the two bytes of an instruction; `step` always fetches two, so it never meets this -/
  | truncated
  deriving DecidableEq, Repr

/-- The decoder on bytes: one instruction and the bytes after it. DESIGN CHOICE, safe: notes/assumptions/13.md. -/
def decodeBytes : List Byte → Except Reject (Instr × List Byte)
  | hi :: lo :: rest => .ok (decode (joinBytes hi lo), rest)
  | _ => .error .truncated

/-! The encoder, one function per format of R52. Bits a format ignores are written 0, the canonical value. -/

/-- Four nibbles, `op[15:12]` first. -/
def packNibbles (f x y n : Nat) : Word := BitVec.ofNat 16 (f * 4096 + x * 256 + y * 16 + n)

/-- Format A. -/
def packA (f : Nat) (nnn : Addr) : Word := BitVec.ofNat 16 (f * 4096 + nnn.toNat)

/-- Formats XI and XS: a register and a byte. -/
def packXI (f : Nat) (x : Reg) (nn : Byte) : Word := BitVec.ofNat 16 (f * 4096 + x.val * 256 + nn.toNat)

/-- The canonical word of an instruction. -/
def encode : Instr → Word
  | .cls => 0x00E0
  | .ret => 0x00EE
  | .jp nnn => packA 0x1 nnn
  | .call nnn => packA 0x2 nnn
  | .seImm x nn => packXI 0x3 x nn
  | .sneImm x nn => packXI 0x4 x nn
  | .seReg x y => packNibbles 0x5 x y 0
  | .ldImm x nn => packXI 0x6 x nn
  | .addImm x nn => packXI 0x7 x nn
  | .ldReg x y => packNibbles 0x8 x y 0x0
  | .orReg x y => packNibbles 0x8 x y 0x1
  | .andReg x y => packNibbles 0x8 x y 0x2
  | .xorReg x y => packNibbles 0x8 x y 0x3
  | .addReg x y => packNibbles 0x8 x y 0x4
  | .subReg x y => packNibbles 0x8 x y 0x5
  | .shrReg x y => packNibbles 0x8 x y 0x6
  | .subnReg x y => packNibbles 0x8 x y 0x7
  | .shlReg x y => packNibbles 0x8 x y 0xE
  | .sneReg x y => packNibbles 0x9 x y 0
  | .ldI nnn => packA 0xA nnn
  | .jpV0 nnn => packA 0xB nnn
  | .rnd x nn => packXI 0xC x nn
  | .drw x y n => packNibbles 0xD x y n
  | .skp x => packXI 0xE x 0x9E
  | .sknp x => packXI 0xE x 0xA1
  | .ldFromDelay x => packXI 0xF x 0x07
  | .ldKey x => packXI 0xF x 0x0A
  | .ldDelay x => packXI 0xF x 0x15
  | .ldSound x => packXI 0xF x 0x18
  | .addI x => packXI 0xF x 0x1E
  | .ldFont x => packXI 0xF x 0x29
  | .ldBcd x => packXI 0xF x 0x33
  | .storeRegs x => packXI 0xF x 0x55
  | .loadRegs x => packXI 0xF x 0x65
  | .nop w => w

/-- The upper byte of an instruction word, stored at the lower address (spec/20_memory.md R32). -/
def hiByte (w : Word) : Byte := w.extractLsb' 8 8

/-- The lower byte of an instruction word. -/
def loByte (w : Word) : Byte := w.extractLsb' 0 8

/-- The bytes of an instruction as they lie in memory. -/
def encodeBytes (i : Instr) : List Byte := [hiByte (encode i), loByte (encode i)]

/-- The 16-bit word of a table row's number `w` of `nbits` bits: the bits above `nbits` are 0. -/
def tableWord (nbits w : Nat) : Word := BitVec.ofNat 16 (w % 2 ^ nbits)

/-- What the decoder reads from the word `w` of a row of spec/opcode_table.json, laid out big-endian. -/
def decodeTableWord (nbits w : Nat) : Option Instr :=
  match decodeBytes [hiByte (tableWord nbits w), loByte (tableWord nbits w)] with
  | .ok (i, _) => some i
  | .error _ => none

end Sys2Proof
end

