-- ==== Sys2Proof/Machine/State.lean ====
section
/-! DEFINITION. The Machine State (spec/10_state.md R10), whole, as plain data; the reasons a step can stop; the state after reset
(R28). -/

namespace Sys2Proof.Machine

/-- Why a step would stop with a fault. The type has no constructor: the spec's machine is total, "every event has a successor
state in every state" (spec/93_implementation_defined.md), and its two stack errors are latched in the `fault` register of a next
state (spec/60_exceptions.md R133). Nothing raises it. DEDUCED, safe: notes/assumptions/12.md. -/
inductive Fault where
  deriving DecidableEq, Repr

/-- Why a step would be refused. -/
inductive Refusal where
  /-- raised by `exec` for an instruction whose meaning is not written yet (no arm does so now); safe -/
  | notModelled (mnemonic : String)
  deriving DecidableEq, Repr

/-- The values of the `fault` register (R22, spec/60_exceptions.md R130). Code 3 is never produced and has no name. -/
inductive FaultCode where
  /-- 0 `NONE` -/
  | noFault
  /-- 1 `STACK_OVERFLOW` -/
  | stackOverflow
  /-- 2 `STACK_UNDERFLOW` -/
  | stackUnderflow
  deriving DecidableEq, Repr

/-- Memory (R18): `cells` lists, by rising address, the bytes that differ from their reset contents; `font` is the parameter `FONT`,
which fixes the reset contents of 0x050 to 0x09F and which nothing changes. DESIGN CHOICE: notes/assumptions/2.md and 10.md. -/
structure Memory where
  font : Font
  cells : List Host.Cell
  deriving DecidableEq, Repr

/-- The 64 x 32 grid (R19): `display[y][x]`, row y from the top, column x from the left, `true` is on. -/
abbrev Display := Vector (Vector Bool 64) 32

/-- The Machine State, field by field as R10 lists it; `draws` alone is the model's own (notes/assumptions/1.md). -/
structure State where
  /-- R11 -/
  v : Vector Byte 16
  /-- R13 -/
  pc : Word
  /-- R14 -/
  i : Word
  /-- R15: entries at and above `sp` keep what was last written there -/
  stack : Vector Word 16
  /-- R15: the count of entries on the stack, 0 to 16 (notes/assumptions/6.md) -/
  sp : Fin 17
  /-- R16 -/
  delayTimer : Byte
  /-- R17 -/
  soundTimer : Byte
  /-- R18 -/
  memory : Memory
  /-- R19 -/
  display : Display
  /-- R20 -/
  isRedrawNeeded : Bool
  /-- R21: `true` is down -/
  keyboard : Vector Bool 16
  /-- R22 -/
  fault : FaultCode
  /-- how many random bytes the run has consumed; numbers the free value `Config.rnd` -/
  draws : Nat
  deriving DecidableEq, Repr

/-- The display with every cell off. -/
def blankDisplay : Display := Vector.replicate 32 (Vector.replicate 64 false)

/-- The state after `Reset` on a machine whose parameter `FONT` is `font` and whose run has consumed `draws` random bytes (R28,
spec/70_reset_and_hazards.md R150): everything zero but the font and `pc`. -/
def State.resetWith (font : Font) (draws : Nat) : State where
  v := Vector.replicate 16 0
  pc := 0x0200
  i := 0
  stack := Vector.replicate 16 0
  sp := 0
  delayTimer := 0
  soundTimer := 0
  memory := { font := font, cells := [] }
  display := blankDisplay
  isRedrawNeeded := false
  keyboard := Vector.replicate 16 false
  fault := .noFault
  draws := draws

/-- The machine right after reset, with the default `FONT` (PRESUMED, notes/assumptions/2.md) and no random byte consumed
(DESIGN CHOICE, notes/assumptions/1.md). -/
def State.reset : State := State.resetWith fontDefault 0

end Sys2Proof.Machine
end

