-- ==== Sys2Proof/Machine/Ops.lean ====
section
/-! DEFINITION. The named operations over memory, registers, stack and `pc`; fetching an instruction; fault entry. -/

namespace Sys2Proof.Machine

/-! ## Memory (spec/20_memory.md) -/

/-- The contents of address `a` after reset (R35, R36). -/
def resetByte (font : Font) (a : Nat) : Byte :=
  if h : 0x050 ≤ a ∧ a < 0x0A0 then font[a - 0x050]'(by omega) else 0

/-- What an unlisted address reads as: its reset contents. -/
def Memory.unlisted (m : Memory) (a : Nat) : Byte := resetByte m.font a

/-- The byte a list of cells holds at `a`. -/
def lookupCell (a : Nat) : List Host.Cell → Option Byte
  | [] => none
  | c :: cs => if c.1 = a then some c.2 else lookupCell a cs

/-- The byte at address `a`. -/
def Memory.read (m : Memory) (a : Nat) : Byte := (lookupCell a m.cells).getD (m.unlisted a)

/-- The cells without the one at `a`. -/
def eraseCell (a : Nat) (cs : List Host.Cell) : List Host.Cell := cs.filter (fun c => c.1 != a)

/-- The cells with `c` put before the first cell of a higher address. -/
def insertCell (c : Host.Cell) : List Host.Cell → List Host.Cell
  | [] => [c]
  | d :: ds => if c.1 < d.1 then c :: d :: ds else d :: insertCell c ds

/-- The memory with byte `b` at address `a`; a byte equal to the reset contents is not listed. -/
def Memory.write (m : Memory) (a : Nat) (b : Byte) : Memory :=
  let rest := eraseCell a m.cells
  { m with cells := if b = m.unlisted a then rest else insertCell (a, b) rest }

/-- The addresses of the cells rise strictly. -/
def cellsRising : List Host.Cell → Bool
  | [] => true
  | [_] => true
  | c :: d :: ds => decide (c.1 < d.1) && cellsRising (d :: ds)

/-- The canonical form: rising addresses, all inside the 4096 bytes (R30), no cell equal to what it would read as unlisted. -/
def Memory.wf (m : Memory) : Bool :=
  cellsRising m.cells && m.cells.all (fun c => decide (c.1 < 4096) && c.2 != m.unlisted c.1)

/-- The memory port's mask: bits 11:0 of a 16-bit address (R31). -/
def maskAddr (a : Word) : Nat := a.toNat % 4096

/-- `MemRead(addr, 1)` (R31). -/
def State.memRead (s : State) (a : Word) : Byte := s.memory.read (maskAddr a)

/-- `MemRead(addr, 2)`, big-endian, each byte masked on its own (R31, R32). -/
def State.memReadWord (s : State) (a : Word) : Word := joinBytes (s.memRead a) (s.memRead (a + 1))

/-- `MemWrite(addr, 1, b)` (R31). -/
def State.memWrite (s : State) (a : Word) (b : Byte) : State := { s with memory := s.memory.write (maskAddr a) b }

/-! ## Registers (spec/10_state.md) -/

/-- `v[k]`. -/
def State.reg (s : State) (k : Reg) : Byte := s.v[k]

/-- `v[k] <- b`. -/
def State.setReg (s : State) (k : Reg) (b : Byte) : State := { s with v := s.v.set k b }

/-- `i <- a`. -/
def State.setI (s : State) (a : Word) : State := { s with i := a }

/-- `pc <- target` (spec/00_scope.md R6). -/
def State.jumpTo (s : State) (target : Word) : State := { s with pc := target }

/-- The registers `v[0]` to `v[x]`, ascending (spec/43_index_and_memory.md R109, R110). -/
def regsUpTo (x : Reg) : List Reg := (List.finRange 16).filter (fun k => k ≤ x)

/-- Key `k` is down (spec/10_state.md R21). -/
def State.keyDown (s : State) (k : Key) : Bool := s.keyboard[k]

/-- `delay_timer <- b`. -/
def State.setDelay (s : State) (b : Byte) : State := { s with delayTimer := b }

/-- `sound_timer <- b`. -/
def State.setSound (s : State) (b : Byte) : State := { s with soundTimer := b }

/-- `draw8()`: the next byte of the `rnd` input, and the state in which it is consumed (spec/45_keys_timers_random.md R126). -/
def State.draw8 (s : State) : Byte × State := (Config.rnd s.draws, { s with draws := s.draws + 1 })

/-! ## The call stack (spec/10_state.md R15) -/

/-- Push a return address, unless 16 are there. -/
def State.push (s : State) (a : Word) : Option State :=
  if h : s.sp.val < 16 then
    some { s with stack := s.stack.set s.sp.val a h, sp := ⟨s.sp.val + 1, by omega⟩ }
  else none

/-- Pop the most recent return address, unless none is there; the entry is not erased. -/
def State.pop (s : State) : Option (Word × State) :=
  if h : 0 < s.sp.val then
    some (s.stack[s.sp.val - 1]'(by omega), { s with sp := ⟨s.sp.val - 1, by omega⟩ })
  else none

/-! ## `pc` during a step (spec/40_step_cycle.md) -/

/-- A core whose `fault` is not `NONE` is halted (R74). -/
def State.halted (s : State) : Bool := s.fault != .noFault

/-- The opcode at `pc` (R70). -/
def State.fetch (s : State) : Word := s.memReadWord s.pc

/-- The advance of `pc` before execution (R70). -/
def State.advance (s : State) : State := { s with pc := s.pc + 2 }

/-- Skip the next instruction if `c` (spec/41_control_flow.md R83). -/
def State.skipIf (s : State) (c : Bool) : State := if c then { s with pc := s.pc + 2 } else s

/-- `stall`: the advance is undone and nothing else changes (R73). -/
def State.stall (s : State) : State := { s with pc := s.pc - 2 }

/-- The state with the opcode `w` in memory at `pc`, big-endian. -/
def State.placeWord (s : State) (w : Word) : State :=
  (s.memWrite s.pc (hiByte w)).memWrite (s.pc + 1) (loByte w)

/-! ## Fault entry (spec/60_exceptions.md) -/

/-- `raise Fault(code)` (R133), in the execute phase: `pc` goes back to the instruction's own address, `fault` takes the code, nothing
else changes. There is no handler and no return from it (R137): only the `Reset` event leaves the fault state. -/
def State.raiseFault (s : State) (code : FaultCode) : State := { s with pc := s.pc - 2, fault := code }

end Sys2Proof.Machine
end

