-- ==== Sys2Proof/Machine/Flags.lean ====
section
/-! DEFINITION. The values of `VF` as a flag (spec/10_state.md R12, spec/42_load_and_alu.md R102): the whole byte becomes 0 or 1. -/

namespace Sys2Proof.Machine

/-- The byte a flag is written as. -/
def flagByte (b : Bool) : Byte := if b then 1 else 0

/-- Carry out of `a + b`: the 9-bit sum exceeds 255 (R96). -/
def carryOut (a b : Byte) : Bool := decide (a.toNat + b.toNat > 255)

/-- No borrow in `a - b` (R97, R99). -/
def notBorrow (a b : Byte) : Bool := decide (a.toNat ≥ b.toNat)

/-- The bit a right shift by one drops (R98). -/
def shiftedOutRight (b : Byte) : Bool := b.getLsbD 0

/-- The bit a left shift by one drops (R100). -/
def shiftedOutLeft (b : Byte) : Bool := b.getLsbD 7

/-- Write a result to `v[X]`, then the flag to `VF`, in this order (R101): with `X` = 15 the flag is what remains. -/
def State.setRegFlag (s : State) (x : Reg) (result : Byte) (flag : Bool) : State :=
  (s.setReg x result).setReg vf (flagByte flag)

end Sys2Proof.Machine
end

