-- ==== Sys2Proof/Machine/Operands.lean ====
section
/-! DEFINITION. The operand forms: immediates, the one data addressing mode, key numbers, screen coordinates. -/

namespace Sys2Proof.Machine

/-- `zext_16(NNN)` (spec/30_encoding.md R53). -/
def zextAddr (nnn : Addr) : Word := nnn.setWidth 16

/-- `zext_16(v[X])`. -/
def zextByte (b : Byte) : Word := b.setWidth 16

/-- The effective address `(i + k) mod 2^16`, masked only at the memory port (spec/43_index_and_memory.md R111). -/
def State.indexed (s : State) (k : Nat) : Word := s.i + BitVec.ofNat 16 k

/-- The key number of `EX9E` and `EXA1`: the low four bits of `v[X]` (spec/45_keys_timers_random.md R127). -/
def keyNumber (b : Byte) : Key := (b.extractLsb' 0 4).toFin

/-- The start column of a sprite: `v[X] mod 64` (spec/44_display.md R116). -/
def startColumn (b : Byte) : Nat := b.toNat % 64

/-- The start row of a sprite: `v[Y] mod 32` (spec/44_display.md R116). -/
def startRow (b : Byte) : Nat := b.toNat % 32

/-- The address of the glyph for digit `b`: `0x0050 + 5 * zext_16(v[X])` on the whole byte (spec/43_index_and_memory.md R107). -/
def glyphAddr (b : Byte) : Word := 0x0050 + 5 * zextByte b

/-- The decimal digits of a byte, hundreds first (spec/43_index_and_memory.md R108). -/
def hundredsDigit (b : Byte) : Byte := BitVec.ofNat 8 (b.toNat / 100)

def tensDigit (b : Byte) : Byte := BitVec.ofNat 8 (b.toNat / 10 % 10)

def unitsDigit (b : Byte) : Byte := BitVec.ofNat 8 (b.toNat % 10)

end Sys2Proof.Machine
end

