-- ==== Sys2Proof/Machine/Display.lean ====
section
/-! DEFINITION. The display instructions (spec/44_display.md). -/

namespace Sys2Proof.Machine

/-- The cell at column `x`, row `y`. -/
def pixel (d : Display) (x : Fin 64) (y : Fin 32) : Bool := d[y][x]

/-- The display with the cell at column `x`, row `y` toggled. -/
def togglePixel (d : Display) (x : Fin 64) (y : Fin 32) : Display := d.set y ((d[y]).set x (!pixel d x y))

/-- The cell at the renderer's linear index `y * 64 + x` (spec/10_state.md R19, R25). -/
def pixelAt (d : Display) (n : Fin 2048) : Bool :=
  pixel d ⟨n.val % 64, by omega⟩ ⟨n.val / 64, by omega⟩

/-- A drawing under way: the display so far, and whether a cell that was on has been toggled. -/
structure Drawing where
  display : Display
  collision : Bool
  deriving DecidableEq, Repr

/-- One set sprite bit at (px, py): clipped outside the grid, else the cell is tested and toggled (R116). -/
def Drawing.plot (g : Drawing) (px py : Nat) : Drawing :=
  if h : px < 64 ∧ py < 32 then
    { display := togglePixel g.display ⟨px, h.1⟩ ⟨py, h.2⟩
      collision := g.collision || pixel g.display ⟨px, h.1⟩ ⟨py, h.2⟩ }
  else g

/-- Sprite column `c` of a sprite row: bit `7 - c` (R117). -/
def spriteBit (row : Byte) (c : Nat) : Bool := row.getLsbD (7 - c)

/-- The pixels of one sprite row, columns 0 to 7 ascending. -/
def Drawing.drawRow (g : Drawing) (row : Byte) (x0 py : Nat) : Drawing :=
  (List.range 8).foldl (fun g c => if spriteBit row c then g.plot (x0 + c) py else g) g

/-- The sprite row `r`, read from memory at `i + r` (R116, R117). -/
def State.spriteRow (s : State) (r : Nat) : Byte := s.memRead (s.indexed r)

/-- The drawing of an `8 x n` sprite from memory at `i`, rows ascending (R116). -/
def State.drawSprite (s : State) (x0 y0 n : Nat) : Drawing :=
  (List.range n).foldl (fun g r => g.drawRow (s.spriteRow r) x0 (y0 + r)) ⟨s.display, false⟩

/-- Replace the display and mark a redraw needed. -/
def State.showDisplay (s : State) (d : Display) : State := { s with display := d, isRedrawNeeded := true }

/-- `00E0` (R115). -/
def execCls (s : State) : Host.Outcome State Fault Refusal :=
  .next (s.showDisplay blankDisplay)

/-- `DXYN` (R116, R119): stall while a redraw is pending; else draw, then write the collision flag. -/
def execDrw (x y : Reg) (n : Fin 16) (s : State) : Host.Outcome State Fault Refusal :=
  if s.isRedrawNeeded then .next s.stall
  else
    let g := s.drawSprite (startColumn (s.reg x)) (startRow (s.reg y)) n.val
    .next ((s.showDisplay g.display).setReg vf (flagByte g.collision))

end Sys2Proof.Machine
end

