-- ==== Sys2Proof/Machine/IndexMemory.lean ====
section
/-! DEFINITION. The index register and the memory instructions (spec/43_index_and_memory.md). -/

namespace Sys2Proof.Machine

/-- `ANNN` (R105). -/
def execLdI (nnn : Addr) (s : State) : Host.Outcome State Fault Refusal :=
  .next (s.setI (zextAddr nnn))

/-- `FX1E` (R106): 16-bit sum, no flag. -/
def execAddI (x : Reg) (s : State) : Host.Outcome State Fault Refusal :=
  .next (s.setI (s.i + zextByte (s.reg x)))

/-- `FX29` (R107). -/
def execLdFont (x : Reg) (s : State) : Host.Outcome State Fault Refusal :=
  .next (s.setI (glyphAddr (s.reg x)))

/-- `FX33` (R108): three digits from `i` up; `i` is not changed. -/
def execLdBcd (x : Reg) (s : State) : Host.Outcome State Fault Refusal :=
  .next (((s.memWrite (s.indexed 0) (hundredsDigit (s.reg x))).memWrite (s.indexed 1) (tensDigit (s.reg x))).memWrite
    (s.indexed 2) (unitsDigit (s.reg x)))

/-- Store the registers of a list, in its order, register k at `base + k`. -/
def State.storeList (s : State) (base : Word) (ks : List Reg) : State :=
  ks.foldl (fun t k => t.memWrite (base + BitVec.ofNat 16 k.val) (s.reg k)) s

/-- Load the registers of a list, in its order, register k from `base + k`. -/
def State.loadList (s : State) (base : Word) (ks : List Reg) : State :=
  ks.foldl (fun t k => t.setReg k (s.memRead (base + BitVec.ofNat 16 k.val))) s

/-- The advance of `i` by `X + 1` (R109, R110). -/
def State.advanceI (s : State) (x : Reg) : State := s.setI (s.i + BitVec.ofNat 16 (x.val + 1))

/-- `FX55` (R109). -/
def execStoreRegs (x : Reg) (s : State) : Host.Outcome State Fault Refusal :=
  .next ((s.storeList s.i (regsUpTo x)).advanceI x)

/-- `FX65` (R110). -/
def execLoadRegs (x : Reg) (s : State) : Host.Outcome State Fault Refusal :=
  .next ((s.loadList s.i (regsUpTo x)).advanceI x)

end Sys2Proof.Machine
end

