-- ==== Sys2Proof/Machine/KeysTimersRandom.lean ====
section
/-! DEFINITION. Key, timer and random instructions (spec/45_keys_timers_random.md). -/

namespace Sys2Proof.Machine

/-- `EX9E` (R120, R127). -/
def execSkp (x : Reg) (s : State) : Host.Outcome State Fault Refusal :=
  .next (s.skipIf (s.keyDown (keyNumber (s.reg x))))

/-- `EXA1` (R121, R127). -/
def execSknp (x : Reg) (s : State) : Host.Outcome State Fault Refusal :=
  .next (s.skipIf (!s.keyDown (keyNumber (s.reg x))))

/-- The scan of the keys 0 to 15 in ascending order: the lowest key that is down (R122). -/
def State.lowestKey (s : State) : Option Key := (List.finRange 16).find? (fun k => s.keyDown k)

/-- `FX0A` (R122): stall while no key is down, else take the lowest. -/
def execLdKey (x : Reg) (s : State) : Host.Outcome State Fault Refusal :=
  match s.lowestKey with
  | none => .next s.stall
  | some k => .next (s.setReg x (BitVec.ofNat 8 k.val))

/-- `FX07` (R123). -/
def execLdFromDelay (x : Reg) (s : State) : Host.Outcome State Fault Refusal :=
  .next (s.setReg x s.delayTimer)

/-- `FX15` (R124). -/
def execLdDelay (x : Reg) (s : State) : Host.Outcome State Fault Refusal :=
  .next (s.setDelay (s.reg x))

/-- `FX18` (R125). -/
def execLdSound (x : Reg) (s : State) : Host.Outcome State Fault Refusal :=
  .next (s.setSound (s.reg x))

/-- `CXNN` (R126): one fresh draw, masked. -/
def execRnd (x : Reg) (nn : Byte) (s : State) : Host.Outcome State Fault Refusal :=
  let (r, s') := s.draw8
  .next (s'.setReg x (r &&& nn))

end Sys2Proof.Machine
end

