-- ==== Sys2Proof/Machine/NoOp.lean ====
section
/-! DEFINITION. The no-op that every unrecognised word executes as (spec/40_step_cycle.md R75). -/

namespace Sys2Proof.Machine

/-- `NOP` (R75): nothing; the fetch has advanced `pc`. -/
def execNop (_w : Word) (s : State) : Host.Outcome State Fault Refusal := .next s

end Sys2Proof.Machine
end

