-- ==== Sys2Proof/Machine/Step.lean ====
section
/-! DEFINITION. The `Step` event (spec/40_step_cycle.md R70): fetch, advance, decode, execute; and the placing of an instruction
where the next step fetches it. -/

namespace Sys2Proof.Machine

/-- The event `Step` (R70). A halted core does nothing (R74). -/
def step (s : State) : Host.Outcome State Fault Refusal :=
  if s.halted then .next s else exec (decode s.fetch) s.advance

/-- The state with a table row's word at `pc`. It stands for a load from outside: notes/assumptions/3.md. -/
def State.withFetchWord (s : State) (nbits w : Nat) : State := s.placeWord (tableWord nbits w)

end Sys2Proof.Machine
end

