-- ==== Sys2Proof/Machine/Events.lean ====
section
/-! DEFINITION. The six atomic events (spec/00_scope.md R5) and runs of them. `Step` is `step`; the others are here. The order of a
run's events is the environment's choice. DESIGN CHOICE: notes/assumptions/4.md. -/

namespace Sys2Proof.Machine

/-- `Reset` (spec/70_reset_and_hazards.md R150): the same state whatever the state was before; the parameter `FONT` and the position
in the stream of draws, no part of the Machine State, stay. -/
def resetEvent (s : State) : State := State.resetWith s.memory.font s.draws

/-- The bytes of a list written from address `a` up. -/
def Memory.writeBytes (m : Memory) (a : Nat) : List Byte → Memory
  | [] => m
  | b :: bs => (m.write a b).writeBytes (a + 1) bs

/-- Where a program is loaded, and the largest image (spec/00_scope.md R4). -/
def progBase : Nat := 0x200

def progMax : Nat := 3584

/-- A `Load` of `n` bytes succeeds (spec/70_reset_and_hazards.md R152). -/
def loadFits (n : Nat) : Bool := decide (0 < n) && decide (n ≤ progMax)

/-- `Load(bytes)` (R152): the state after it, and the success that is reported to the caller. -/
def loadEvent (bytes : List Byte) (s : State) : State × Bool :=
  if loadFits bytes.length then ({ s with memory := s.memory.writeBytes progBase bytes }, true) else (s, false)

/-- One timer's decrement, never below zero (spec/60_exceptions.md R138). -/
def countDown (t : Byte) : Byte := if t = 0 then t else t - 1

/-- `Tick` (R138): both timers; gated by nothing. -/
def tickEvent (s : State) : State :=
  { s with delayTimer := countDown s.delayTimer, soundTimer := countDown s.soundTimer }

/-- `KeyWrite(k, b)` (R141). -/
def keyWriteEvent (k : Key) (b : Bool) (s : State) : State := { s with keyboard := s.keyboard.set k b }

/-- `FrameConsumed` (R140). -/
def frameConsumedEvent (s : State) : State := { s with isRedrawNeeded := false }

/-- The events. -/
inductive Event where
  | reset
  | load (bytes : List Byte)
  | step
  | tick
  | keyWrite (k : Key) (b : Bool)
  | frameConsumed
  deriving DecidableEq, Repr

/-- What one event does. A failed `Load` leaves the state as it was. -/
def applyEvent (e : Event) (s : State) : Host.Outcome State Fault Refusal :=
  match e with
  | .reset => .next (resetEvent s)
  | .load bytes => .next (loadEvent bytes s).1
  | .step => step s
  | .tick => .next (tickEvent s)
  | .keyWrite k b => .next (keyWriteEvent k b s)
  | .frameConsumed => .next (frameConsumedEvent s)

/-- A run: events one after another. -/
def runEvents : List Event → State → Host.Outcome State Fault Refusal
  | [], s => .next s
  | e :: es, s =>
    match applyEvent e s with
    | .next s' => runEvents es s'
    | .fault r => .fault r
    | .refused r => .refused r

end Sys2Proof.Machine
end

