-- ==== Sys2Proof/Machine/Ports.lean ====
section
/-! DEFINITION. The interface signals (spec/10_state.md R25) and one clock edge (R26): coincident strobes are applied in a fixed
order. The spec calls the ports its own choice; the events are what the rest of the model rests on. `clk` carries no meaning
and `rnd` is the free value `Config.rnd`. DESIGN CHOICE: notes/assumptions/7.md. -/

namespace Sys2Proof.Machine

/-- The input ports at one clock edge. -/
structure Inputs where
  rst : Bool
  ldWe : Bool
  ldAddr : BitVec 12
  ldData : Byte
  keyWe : Bool
  keyIdx : Key
  keyVal : Bool
  frameAck : Bool
  step : Bool
  tick60 : Bool
  deriving DecidableEq, Repr

/-- The output ports that need no address. -/
structure Outputs where
  redraw : Bool
  sndOn : Bool
  fault : BitVec 2
  halted : Bool
  deriving DecidableEq, Repr

/-- The number a fault code shows on the port (R22). -/
def faultNumber (c : FaultCode) : BitVec 2 :=
  match c with
  | .noFault => 0
  | .stackOverflow => 1
  | .stackUnderflow => 2

/-- `redraw`, `snd_on`, `fault` and `halted` as functions of the state (R25, spec/60_exceptions.md R142). -/
def outputs (s : State) : Outputs where
  redraw := s.isRedrawNeeded
  sndOn := decide (s.soundTimer.toNat > 0)
  fault := faultNumber s.fault
  halted := s.halted

/-- The renderer's read port: `fb_q` at `fb_addr` (R25). -/
def framebufferRead (s : State) (fbAddr : BitVec 11) : Bool := pixelAt s.display fbAddr.toFin

/-- One write on the ROM loader's port: ignored below 0x200 (R25). -/
def loadPortWrite (a : BitVec 12) (b : Byte) (s : State) : State :=
  if progBase ≤ a.toNat then { s with memory := s.memory.write a.toNat b } else s

/-- The strobes that come before `Step` at a clock edge, in the order of R26. -/
def edgeBeforeStep (p : Inputs) (s : State) : State :=
  let s1 := if p.ldWe then loadPortWrite p.ldAddr p.ldData s else s
  let s2 := if p.keyWe then keyWriteEvent p.keyIdx p.keyVal s1 else s1
  if p.frameAck then frameConsumedEvent s2 else s2

/-- `Tick`, the last strobe at a clock edge. -/
def edgeAfterStep (p : Inputs) (s : State) : State := if p.tick60 then tickEvent s else s

/-- One clock edge (R25, R26): `rst` overrides every other input. -/
def clockEdge (p : Inputs) (s : State) : Host.Outcome State Fault Refusal :=
  if p.rst then .next (resetEvent s)
  else if p.step then
    match step (edgeBeforeStep p s) with
    | .next s' => .next (edgeAfterStep p s')
    | .fault r => .fault r
    | .refused r => .refused r
  else .next (edgeAfterStep p (edgeBeforeStep p s))

end Sys2Proof.Machine
end

