-- ==== Sys2Proof/Safety.lean ====
section
/-! DEFINITION. What claims are stated in: the invariant of the machine, a run that ended, a step that waits. -/

namespace Sys2Proof.Machine

/-- The latched fault tells the stack's state: overflow only with 16 entries, underflow only with none
(spec/60_exceptions.md R130; a halted core changes neither, R74). -/
def faultMatchesStack (s : State) : Bool :=
  match s.fault with
  | .noFault => true
  | .stackOverflow => s.sp.val == 16
  | .stackUnderflow => s.sp.val == 0

/-- The invariant: memory is in its canonical form, and the latched fault matches the stack. -/
abbrev State.Inv (s : State) : Prop := s.memory.wf = true ∧ faultMatchesStack s = true

/-- The run is over in the sense spec/70_reset_and_hazards.md R162 suggests: `pc` holds the address of a `1NNN` whose target is that
address, and `fault` is `NONE`. A definition of the model, not a fact about the hardware. DESIGN CHOICE: notes/assumptions/14.md. -/
def endOfRun (s : State) : Bool :=
  !s.halted && (match decode s.fetch with
    | .jp nnn => zextAddr nnn == s.pc
    | _ => false)

/-- A step that waits: a sprite draw while a redraw is pending, or a key wait while no key is down (spec/40_step_cycle.md R73). -/
def stalls (i : Instr) (s : State) : Bool :=
  match i with
  | .drw _ _ _ => s.isRedrawNeeded
  | .ldKey _ => (List.finRange 16).all (fun k => !s.keyDown k)
  | _ => false

end Sys2Proof.Machine
end

