-- ==== Sys2Proof/Certificates/Slice0/Obligations.lean ====
section
/-! DEFINITION. The statements for the provers. Each docstring says which rule or section of spec/ the statement formalises; a
clause that rests on a decision the spec marks as its own (D<n> of spec/92_eei_decisions.md) or on a choice of the model (an
entry of notes/assumptions) says so.

`exec` runs in the execute phase: its state has `pc` already advanced by 2 (spec/40_step_cycle.md R71). `t = { s with … := t.… }` is
a frame: every field of the state that is not named is as it was, memory, registers, stack, timers, display, keys, `fault` alike.
A `RowIs` clause is the encoding line of the instruction's rule. -/

namespace Sys2Proof.Claims

open Sys2Proof.Machine

/-- Only the register file changed: every byte of memory and every other piece of state is as it was. -/
def OnlyV (s t : State) : Prop := t = { s with v := t.v }

/-- The register file changed in the registers of `ks` at most. -/
def OnlyRegs (ks : List Reg) (s t : State) : Prop := OnlyV s t ∧ ∀ k, k ∉ ks → t.reg k = s.reg k

/-- The value `VF` takes as a flag. -/
def FlagIs (t : State) (p : Prop) : Prop := (p → t.reg vf = 1) ∧ (¬p → t.reg vf = 0)

/-- Sprite row `r`, column `c` has a set bit, read as spec/44_display.md R117 lays a sprite out. -/
def SpriteBit (s : State) (r c : Nat) : Prop := (s.memRead (s.i + BitVec.ofNat 16 r)).getLsbD (7 - c) = true

/-- A set bit of the sprite of `n` rows drawn at column `x0`, row `y0` falls on the cell at column `px`, row `py`. -/
def Covers (s : State) (x0 y0 n px py : Nat) : Prop :=
  ∃ r c, r < n ∧ c < 8 ∧ px = x0 + c ∧ py = y0 + r ∧ SpriteBit s r c

/-- The word with the bits its row does not inspect cleared (spec/30_encoding.md R55, R59). -/
def canonicalWord (w : Word) : Word :=
  if w &&& 0xF0FF = 0x00E0 ∨ w &&& 0xF0FF = 0x00EE then w &&& 0xF0FF
  else if w &&& 0xF000 = 0x5000 ∨ w &&& 0xF000 = 0x9000 then w &&& 0xFFF0
  else w

/-- A word whose bits under `mask` are `bits` stands for the instruction `f` reads from its fields (spec/30_encoding.md R62). -/
def RowIs (mask bits : Word) (f : Word → Instr) : Prop := ∀ w : Word, w &&& mask = bits → decode w = f w

/-- `p` is the value of `pc` that the table of spec/40_step_cycle.md R72 gives after the step that executes `i` in the state `s` (before
the fetch, so `s.pc` is `pc0`). -/
def PcRule (i : Instr) (s : State) (p : Word) : Prop :=
  match i with
  | .jp nnn => p.toNat = nnn.toNat
  | .call nnn => if s.sp.val = 16 then p = s.pc else p.toNat = nnn.toNat
  | .ret => (s.sp.val = 0 → p = s.pc) ∧ ∀ k : Fin 16, k.val + 1 = s.sp.val → p = s.stack[k]
  | .jpV0 nnn => p.toNat = (s.reg 0).toNat + nnn.toNat
  | .seImm x nn => p = if s.reg x = nn then s.pc + 4 else s.pc + 2
  | .sneImm x nn => p = if s.reg x = nn then s.pc + 2 else s.pc + 4
  | .seReg x y => p = if s.reg x = s.reg y then s.pc + 4 else s.pc + 2
  | .sneReg x y => p = if s.reg x = s.reg y then s.pc + 2 else s.pc + 4
  | .skp x => ∀ k : Key, k.val = (s.reg x).toNat % 16 → p = if s.keyDown k then s.pc + 4 else s.pc + 2
  | .sknp x => ∀ k : Key, k.val = (s.reg x).toNat % 16 → p = if s.keyDown k then s.pc + 2 else s.pc + 4
  | .drw _ _ _ => p = if s.isRedrawNeeded then s.pc else s.pc + 2
  | .ldKey _ => p = if ∃ k, s.keyDown k = true then s.pc + 2 else s.pc
  | _ => p = s.pc + 2

/-- The values of spec/10_state.md R28 on a machine whose `FONT` is `font`. -/
structure HasResetValues (font : Font) (t : State) : Prop where
  registers : ∀ k, t.reg k = 0
  pc : t.pc = 0x0200
  i : t.i = 0
  sp : t.sp.val = 0
  stack : ∀ k : Fin 16, t.stack[k] = 0
  delayTimer : t.delayTimer = 0
  soundTimer : t.soundTimer = 0
  fontBytes : ∀ k : Fin 80, t.memory.read (0x050 + k.val) = font[k]
  otherBytes : ∀ a, a < 0x050 ∨ 0x0A0 ≤ a → t.memory.read a = 0
  display : ∀ x y, pixel t.display x y = false
  redraw : t.isRedrawNeeded = false
  keyboard : ∀ k, t.keyDown k = false
  fault : t.fault = .noFault

end Sys2Proof.Claims

open Sys2Proof Sys2Proof.Machine Sys2Proof.Claims

/-! ## Encoding -/

/-- Every well-formed instruction, with every operand at every value, is decoded from the word that encodes it: no bit of an encoding is
dropped (spec/30_encoding.md sections 1 to 3; the encoder's ignored bits are 0, notes/assumptions/9.md). -/
def Obligations.DecodeEncodeRoundTrip : Prop := ∀ i : Instr, i.WellFormed → decode (encode i) = i

/-- Encoding what a word decodes to gives the word back, with the bits its row does not inspect cleared: only `op[11:8]` of `0kE0` and
`0kEE` and `op[3:0]` of `5XYk` and `9XYk` are ever lost (spec/30_encoding.md sections 2 and 3). -/
def Obligations.EncodeDecodeIsCanonicalWord : Prop := ∀ w : Word, encode (decode w) = canonicalWord w

/-- The two-level decoder follows the map of masks and matches; the map has 34 rows, they are disjoint, and a word matching no row
is the no-op (spec/30_encoding.md sections 2 and 3). -/
def Obligations.DecodeFollowsOpcodeMap : Prop :=
  opcodeMap.length = 34 ∧
  ∀ w : Word,
    (∀ r ∈ opcodeMap, w &&& r.mask = r.bits ↔ (decode w).mnemonic = r.mnemonic) ∧
    (∀ r ∈ opcodeMap, ∀ q ∈ opcodeMap, w &&& r.mask = r.bits → w &&& q.mask = q.bits → r = q) ∧
    ((∀ r ∈ opcodeMap, w &&& r.mask ≠ r.bits) ↔ decode w = .nop w)

/-- R51: each operand field is its bits of the word, and the byte at `pc` is the upper half of the word. -/
def Obligations.FieldsAreTheirBits : Prop :=
  (∀ hi lo : Byte, ∀ k < 8, (joinBytes hi lo).getLsbD (8 + k) = hi.getLsbD k ∧ (joinBytes hi lo).getLsbD k = lo.getLsbD k) ∧
  ∀ w : Word,
    (∀ k < 4, (opFamily w).getLsbD k = w.getLsbD (12 + k)) ∧
    (∀ k < 4, (opX w).val.testBit k = w.getLsbD (8 + k)) ∧
    (∀ k < 4, (opY w).val.testBit k = w.getLsbD (4 + k)) ∧
    (∀ k < 4, (opN w).getLsbD k = w.getLsbD k) ∧
    (∀ k < 8, (opNN w).getLsbD k = w.getLsbD k) ∧
    (∀ k < 12, (opNNN w).getLsbD k = w.getLsbD k)

/-- The words of spec/95_test_vectors.md section 2.1 decode to the instructions named there. -/
def Obligations.SpecWordsDecode : Prop :=
  decode 0xD123 = .drw 1 2 3 ∧ decode 0xCAFE = .rnd 0xA 0xFE ∧ decode 0x2FFF = .call 0xFFF ∧ decode 0x8AB4 = .addReg 0xA 0xB ∧
  decode 0xFE65 = .loadRegs 0xE ∧ decode 0xB234 = .jpV0 0x234 ∧ decode 0x01E0 = .cls ∧ decode 0x0FEE = .ret ∧
  decode 0x00F0 = .nop 0x00F0 ∧ decode 0x5127 = .seReg 1 2 ∧ decode 0xE1FE = .nop 0xE1FE ∧ decode 0x8ABF = .nop 0x8ABF

/-- Whatever the word, the decoder answers a well-formed instruction: a no-op only for a word no row selects. -/
def Obligations.DecodedInstructionsAreWellFormed : Prop := ∀ w : Word, (decode w).WellFormed

/-- The byte-level decoder takes the first byte as `op[15:8]`, leaves the rest, and rejects exactly the lists of fewer than two bytes
(the rejection is the model's choice, notes/assumptions/13.md). -/
def Obligations.BytesDecodeBigEndian : Prop :=
  (∀ (w : Word) (rest : List Byte),
    decodeBytes (BitVec.ofNat 8 (w.toNat / 256) :: BitVec.ofNat 8 (w.toNat % 256) :: rest) = .ok (decode w, rest)) ∧
  ∀ bs : List Byte, decodeBytes bs = .error .truncated ↔ bs.length < 2

/-! ## The step -/

/-- A core that is not halted runs the instruction that the bytes at `pc` and `pc + 1` decode to, on the state with `pc` advanced by 2
(spec/40_step_cycle.md, the Step event; `memRead` masks each address, decision D3). -/
def Obligations.StepRunsDecodedInstruction : Prop :=
  ∀ (s : State) (i : Instr), s.fault = .noFault →
    decodeBytes [s.memRead s.pc, s.memRead (s.pc + 1)] = .ok (i, []) →
    step s = exec i { s with pc := s.pc + 2 }

/-- A halted core does nothing (decision D5). -/
def Obligations.HaltedStepChangesNothing : Prop := ∀ s : State, s.fault ≠ .noFault → step s = .next s

/-- The machine is total: "every event has a successor state in every state" (spec/93_implementation_defined.md). -/
def Obligations.EveryStepHasASuccessor : Prop := ∀ s : State, ∃ t, step s = .next t

/-- After a step of a running core `pc` is what the table of spec/40_step_cycle.md R72 says (an inference the spec marks as its own). -/
def Obligations.PcAfterStepFollowsTable : Prop :=
  ∀ s t : State, s.fault = .noFault → step s = .next t → PcRule (decode s.fetch) s t.pc

/-- A stalled step is the identity on the whole state (spec/40_step_cycle.md, the stall). -/
def Obligations.StalledStepIsIdentity : Prop :=
  ∀ s : State, s.fault = .noFault →
    ((∃ x y n, decode s.fetch = .drw x y n) ∧ s.isRedrawNeeded = true ∨
      (∃ x, decode s.fetch = .ldKey x) ∧ ∀ k, s.keyDown k = false) →
    step s = .next s

/-- A step of a running core leaves the whole state as it was exactly if it waits, or is a jump to itself, plain (the end of a run,
notes/assumptions/14.md) or computed: no other instruction can hold the core in place (spec/40_step_cycle.md, the stall; spec/41_control_flow.md;
spec/70_reset_and_hazards.md section 6). -/
def Obligations.OnlyWaitsAndSelfJumpsRepeat : Prop :=
  ∀ s : State, s.fault = .noFault →
    (step s = .next s ↔ stalls (decode s.fetch) s = true ∨ endOfRun s = true ∨
      ∃ nnn, decode s.fetch = .jpV0 nnn ∧ (s.reg 0).toNat + nnn.toNat = s.pc.toNat)

/-- An instruction placed at `pc` is the one the very next step runs: the model's own placing (notes/assumptions/3.md) agrees with the
fetch. -/
def Obligations.PlacedWordRunsNext : Prop :=
  ∀ (s : State) (w : Nat), s.fault = .noFault →
    step (s.withFetchWord 16 w) = exec (decode (BitVec.ofNat 16 w)) { s.withFetchWord 16 w with pc := s.pc + 2 }

/-- `Reset`, `Load`, `Step`: the first instruction executed is the first word of the image, at 0x0200 (spec/70_reset_and_hazards.md
sections 1 to 3). -/
def Obligations.FirstStepAfterLoadRunsImage : Prop :=
  ∀ (s : State) (hi lo : Byte) (rest : List Byte), rest.length ≤ 3582 →
    ∃ u : State, runEvents [.reset, .load (hi :: lo :: rest)] s = .next u ∧ u.pc = 0x0200 ∧
      runEvents [.reset, .load (hi :: lo :: rest), .step] s = exec (decode (joinBytes hi lo)) { u with pc := 0x0202 }

/-! ## Invariants and whole-machine rules -/

/-- Every step keeps the invariant: memory stays in its canonical form, and a latched fault matches the stack. The form, cells by rising
address that differ from their reset contents, is the model's own representation (DESIGN CHOICE, notes/assumptions/10.md); from the
spec are its bound of 4096 bytes (spec/20_memory.md section 1) and the fault clause (spec/60_exceptions.md section 1). -/
def Obligations.StepKeepsInvariant : Prop := ∀ s t : State, s.Inv → step s = .next t → t.Inv

/-- The invariant holds after reset. Its clause on memory's canonical form is about the model's own representation (DESIGN CHOICE,
notes/assumptions/10.md); that `fault` is `NONE` after reset is spec/10_state.md section 8. -/
def Obligations.ResetMeetsInvariant : Prop := State.reset.Inv

/-- Every run of events, in any order, keeps the invariant, whose clause on memory's canonical form is about the model's own
representation (DESIGN CHOICE, notes/assumptions/10.md). -/
def Obligations.RunsKeepInvariant : Prop := ∀ (es : List Event) (s t : State), s.Inv → runEvents es s = .next t → t.Inv

/-- Which instructions can change each piece of state in a step (the summary table of spec/10_state.md section 1, and R11, R20 to R22;
`draws` is the model's own, notes/assumptions/1.md). `is_redraw_needed` can only be set. -/
def Obligations.OnlyListedInstructionsWriteState : Prop :=
  ∀ s t : State, s.fault = .noFault → step s = .next t →
    (t.memory ≠ s.memory → (decode s.fetch).mnemonic ∈ ["LD_B__Vx", "LD__I___Vx"]) ∧
    (t.i ≠ s.i → (decode s.fetch).mnemonic ∈ ["LD_I__NNN", "ADD_I__Vx", "LD_F__Vx", "LD__I___Vx", "LD_Vx___I"]) ∧
    (t.stack ≠ s.stack → (decode s.fetch).mnemonic = "CALL_NNN") ∧
    (t.sp ≠ s.sp → (decode s.fetch).mnemonic ∈ ["CALL_NNN", "RET"]) ∧
    (t.fault ≠ s.fault → (decode s.fetch).mnemonic ∈ ["CALL_NNN", "RET"]) ∧
    (t.delayTimer ≠ s.delayTimer → (decode s.fetch).mnemonic = "LD_DT__Vx") ∧
    (t.soundTimer ≠ s.soundTimer → (decode s.fetch).mnemonic = "LD_ST__Vx") ∧
    (t.display ≠ s.display → (decode s.fetch).mnemonic ∈ ["CLS", "DRW_Vx__Vy__N"]) ∧
    (t.isRedrawNeeded ≠ s.isRedrawNeeded →
      (decode s.fetch).mnemonic ∈ ["CLS", "DRW_Vx__Vy__N"] ∧ t.isRedrawNeeded = true) ∧
    (t.draws ≠ s.draws → (decode s.fetch).mnemonic = "RND_Vx__NN") ∧
    (t.v ≠ s.v → (decode s.fetch).mnemonic ∈ ["LD_Vx__NN", "ADD_Vx__NN", "LD_Vx__Vy", "OR_Vx__Vy", "AND_Vx__Vy", "XOR_Vx__Vy",
      "ADD_Vx__Vy", "SUB_Vx__Vy", "SHR_Vx__Vy", "SUBN_Vx__Vy", "SHL_Vx__Vy", "RND_Vx__NN", "LD_Vx__DT", "LD_Vx__K", "LD_Vx___I",
      "DRW_Vx__Vy__N"]) ∧
    t.keyboard = s.keyboard ∧ t.memory.font = s.memory.font

/-- A step of a running core enters the fault state exactly for a call with 16 entries or a return with none, and then nothing but
`fault` differs from the state before the step (decision D5). -/
def Obligations.FaultsArePrecise : Prop :=
  ∀ s t : State, s.fault = .noFault → step s = .next t →
    (t.fault = .stackOverflow ↔ (∃ nnn, decode s.fetch = .call nnn) ∧ s.sp.val = 16) ∧
    (t.fault = .stackUnderflow ↔ decode s.fetch = .ret ∧ s.sp.val = 0) ∧
    (t.fault ≠ .noFault → t = { s with fault := t.fault })

/-- Without `Reset` no sequence of events leaves the fault state, and the program's registers, stack and display stay as they were; the
timers, keys, memory and the redraw flag belong to the other events (decisions D5, D17). -/
def Obligations.FaultIsLatchedUntilReset : Prop :=
  ∀ (es : List Event) (s t : State), s.fault ≠ .noFault → Event.reset ∉ es → runEvents es s = .next t →
    t.fault = s.fault ∧ t.pc = s.pc ∧ t.v = s.v ∧ t.i = s.i ∧ t.stack = s.stack ∧ t.sp = s.sp ∧ t.display = s.display ∧
    t.draws = s.draws

/-- No instruction reads `sound_timer`: two states that differ only there step to states that differ at most there
(spec/10_state.md section 5). -/
def Obligations.SoundTimerIsNeverRead : Prop :=
  ∀ (s t : State) (b : Byte), step s = .next t →
    ∃ t', step { s with soundTimer := b } = .next t' ∧ ∃ c, t' = { t with soundTimer := c }

/-- Stack entries at and above `sp` are never read before being overwritten: two states that differ only there step to states that
differ only there (spec/10_state.md section 5, an inference the spec marks as its own). -/
def Obligations.DeadStackEntriesAreNeverRead : Prop :=
  ∀ (s t : State) (w : Vector Word 16), (∀ k : Fin 16, k.val < s.sp.val → w[k] = s.stack[k]) → step s = .next t →
    ∃ t', step { s with stack := w } = .next t' ∧ t' = { t with stack := t'.stack } ∧
      ∀ k : Fin 16, k.val < t.sp.val → t'.stack[k] = t.stack[k]

/-- A block store into the next instruction is seen by the very next fetch (spec/20_memory.md section 7, an inference the spec marks as its
own). -/
def Obligations.FetchSeesPrecedingStore : Prop :=
  ∀ (x k j : Reg) (s t : State), s.fault = .noFault → decode s.fetch = .storeRegs x → step s = .next t → j.val = k.val + 1 → j ≤ x →
    t.pc.toNat % 4096 = (s.i.toNat + k.val) % 65536 % 4096 → t.fetch = joinBytes (s.reg k) (s.reg j)

/-- The parameter `FONT` and reset contents of memory never change in a run: the model carries `FONT` beside memory
(notes/assumptions/2.md). -/
def Obligations.RunsKeepFontParameter : Prop :=
  ∀ (es : List Event) (s t : State), runEvents es s = .next t → t.memory.font = s.memory.font

/-! ## Reset, load and the other events -/

/-- The values of the table of spec/10_state.md section 8 after `Reset`, whatever the state was, and in the model's reset state; the `FONT`
bytes are the machine's parameter (notes/assumptions/2.md), the `fault` row and the repeatable `Reset` are decisions D5 and D15. -/
def Obligations.ResetLeavesListedValues : Prop :=
  (∀ s : State, HasResetValues s.memory.font (resetEvent s)) ∧ HasResetValues fontDefault State.reset

/-- `Load` copies 1 to 3584 bytes verbatim from 0x200 up and changes no other byte and no other state; else it fails and changes nothing
(spec/70_reset_and_hazards.md section 2, decision D16). -/
def Obligations.LoadCopiesImageOrFails : Prop :=
  ∀ (bytes : List Byte) (s : State),
    (1 ≤ bytes.length ∧ bytes.length ≤ 3584 →
      ∃ t, loadEvent bytes s = (t, true) ∧ t = { s with memory := t.memory } ∧
        (∀ (k : Nat) (b : Byte), bytes[k]? = some b → t.memory.read (0x200 + k) = b) ∧
        (∀ a, a < 0x200 ∨ 0x200 + bytes.length ≤ a → t.memory.read a = s.memory.read a)) ∧
    (bytes.length = 0 ∨ 3584 < bytes.length → loadEvent bytes s = (s, false))

/-- `Tick` takes 1 from each timer that is above 0 and does nothing else, halted or not (spec/60_exceptions.md section 3, decision D17). -/
def Obligations.TickCountsTimersDown : Prop :=
  ∀ s : State, ∃ t, applyEvent .tick s = .next t ∧ t = { s with delayTimer := t.delayTimer, soundTimer := t.soundTimer } ∧
    (s.delayTimer.toNat = 0 → t.delayTimer = s.delayTimer) ∧ (0 < s.delayTimer.toNat → t.delayTimer.toNat + 1 = s.delayTimer.toNat) ∧
    (s.soundTimer.toNat = 0 → t.soundTimer = s.soundTimer) ∧ (0 < s.soundTimer.toNat → t.soundTimer.toNat + 1 = s.soundTimer.toNat)

/-- R141: `KeyWrite(k, b)` sets one key state and changes nothing else; writing the value a key has changes nothing; the write port
alone produces the event. -/
def Obligations.KeyWriteSetsOneKey : Prop :=
  (∀ (p : Inputs) (s : State), p.rst = false → p.ldWe = false → p.frameAck = false → p.step = false → p.tick60 = false → p.keyWe = true →
    clockEdge p s = applyEvent (.keyWrite p.keyIdx p.keyVal) s) ∧
  ∀ (s : State) (k : Key) (b : Bool), ∃ t, applyEvent (.keyWrite k b) s = .next t ∧ t = { s with keyboard := t.keyboard } ∧
    t.keyDown k = b ∧ (∀ j, j ≠ k → t.keyDown j = s.keyDown j) ∧ (s.keyDown k = b → t = s)

/-- The renderer interface (spec/60_exceptions.md R140): the renderer sees the flag, and `FrameConsumed` clears it and changes nothing else,
whether or not it is 1. The ports are the spec's decision D1 (notes/assumptions/7.md): `frame_ack` alone produces the event, and the read
port at `y * 64 + x` shows the row-major cell (spec/10_state.md R19, R25). -/
def Obligations.RendererInterface : Prop :=
  (∀ (p : Inputs) (s : State), p.rst = false → p.ldWe = false → p.keyWe = false → p.step = false → p.tick60 = false → p.frameAck = true →
    clockEdge p s = applyEvent .frameConsumed s) ∧
  ∀ s : State, applyEvent .frameConsumed s = .next { s with isRedrawNeeded := false } ∧ (outputs s).redraw = s.isRedrawNeeded ∧
    ∀ (x : Fin 64) (y : Fin 32), framebufferRead s (BitVec.ofNat 11 (y.val * 64 + x.val)) = pixel s.display x y

/-- The fault ports and the audio port as functions of the state (spec/10_state.md section 7; the ports are decision D1). -/
def Obligations.OutputPortsShowState : Prop :=
  ∀ s : State, ((outputs s).sndOn = true ↔ s.soundTimer ≠ 0) ∧ ((outputs s).halted = true ↔ s.fault ≠ .noFault) ∧
    ((outputs s).fault = 0 ↔ s.fault = .noFault) ∧ ((outputs s).fault = 1 ↔ s.fault = .stackOverflow) ∧
    ((outputs s).fault = 2 ↔ s.fault = .stackUnderflow)

/-- Coincident strobes, in the order of spec/10_state.md R26 (decision D2; the ports are decision D1, notes/assumptions/7.md). `rst`
overrides every other strobe. The load write comes before the step: a byte loaded at `pc` is the upper half of the word that the step
executes. The key write comes before the step: a key pressed at the edge ends the wait of an `FX0A`. The acknowledge comes before the
step: a waiting `DXYN` draws. The tick comes after the step: it counts down the value that `FX15` has just written, and `FX07` reads the
value before it. -/
def Obligations.CoincidentStrobesAreOrdered : Prop :=
  (∀ (p : Inputs) (s : State), p.rst = true → clockEdge p s = applyEvent .reset s) ∧
  (∀ (p : Inputs) (s : State), s.fault = .noFault → p.rst = false → p.ldWe = true → p.keyWe = false → p.frameAck = false →
    p.step = true → p.tick60 = false → 0x200 ≤ p.ldAddr.toNat → p.ldAddr.toNat = s.pc.toNat % 4096 →
    ∃ u : State, u = { s with memory := u.memory } ∧
      (∀ a, u.memory.read a = if a = p.ldAddr.toNat then p.ldData else s.memory.read a) ∧
      clockEdge p s = exec (decode (joinBytes p.ldData (s.memRead (s.pc + 1)))) { u with pc := s.pc + 2 }) ∧
  (∀ (p : Inputs) (s : State) (x : Reg), s.fault = .noFault → decode s.fetch = .ldKey x → (∀ k, s.keyDown k = false) →
    p.rst = false → p.ldWe = false → p.keyWe = true → p.keyVal = true → p.step = true → p.tick60 = true →
    ∃ t, clockEdge p s = .next t ∧ (t.reg x).toNat = p.keyIdx.val ∧ t.pc = s.pc + 2 ∧
      t.delayTimer.toNat = s.delayTimer.toNat - 1) ∧
  (∀ (p : Inputs) (s : State) (x y : Reg) (n : Fin 16), s.fault = .noFault → decode s.fetch = .drw x y n →
    s.isRedrawNeeded = true → p.rst = false → p.ldWe = false → p.keyWe = false → p.frameAck = true → p.step = true →
    p.tick60 = false →
    ∃ t, clockEdge p s = .next t ∧ exec (.drw x y n) { s with pc := s.pc + 2, isRedrawNeeded := false } = .next t ∧
      t.pc = s.pc + 2 ∧ t.isRedrawNeeded = true) ∧
  (∀ (p : Inputs) (s : State) (x : Reg), s.fault = .noFault → decode s.fetch = .ldDelay x → p.rst = false → p.ldWe = false →
    p.step = true → p.tick60 = true →
    ∃ t, clockEdge p s = .next t ∧ t.delayTimer.toNat = (s.reg x).toNat - 1 ∧ t.soundTimer.toNat = s.soundTimer.toNat - 1) ∧
  ∀ (p : Inputs) (s : State) (x : Reg), s.fault = .noFault → decode s.fetch = .ldFromDelay x → p.rst = false → p.ldWe = false →
    p.step = true → p.tick60 = true →
    ∃ t, clockEdge p s = .next t ∧ t.reg x = s.delayTimer ∧ t.delayTimer.toNat = s.delayTimer.toNat - 1

/-! ## Control transfer -/

/-- R81: `1NNN` sets `pc` and nothing else; a jump to itself is a fixed point of the step. -/
def Obligations.JumpSetsPc : Prop :=
  RowIs 0xF000 0x1000 (fun w => .jp (opNNN w)) ∧
  (∀ (nnn : Addr) (s : State), ∃ t, exec (.jp nnn) s = .next t ∧ t.pc.toNat = nnn.toNat ∧ t = { s with pc := t.pc }) ∧
  ∀ (nnn : Addr) (s : State), s.fault = .noFault → decode s.fetch = .jp nnn → s.pc.toNat = nnn.toNat → step s = .next s

/-- R87: `BNNN` jumps to `v[0] + NNN`, never reduced to 12 bits. -/
def Obligations.ComputedJumpAddsV0 : Prop :=
  RowIs 0xF000 0xB000 (fun w => .jpV0 (opNNN w)) ∧
  ∀ (nnn : Addr) (s : State), ∃ t, exec (.jpV0 nnn) s = .next t ∧ t.pc.toNat = (s.reg 0).toNat + nnn.toNat ∧ t = { s with pc := t.pc }

/-- `2NNN` with fewer than 16 entries pushes the advanced `pc` and jumps (spec/41_control_flow.md, call subroutine). -/
def Obligations.CallPushesReturnAddress : Prop :=
  ∀ (nnn : Addr) (s : State), s.sp.val < 16 →
    ∃ t, exec (.call nnn) s = .next t ∧ t.pc.toNat = nnn.toNat ∧ t.sp.val = s.sp.val + 1 ∧
      (∀ k : Fin 16, k.val = s.sp.val → t.stack[k] = s.pc) ∧ (∀ k : Fin 16, k.val ≠ s.sp.val → t.stack[k] = s.stack[k]) ∧
      t = { s with pc := t.pc, sp := t.sp, stack := t.stack }

/-- `00EE` with an entry on the stack pops the most recent one into `pc`, all 16 bits, and erases nothing (spec/41_control_flow.md,
return from subroutine). -/
def Obligations.ReturnPopsIntoPc : Prop :=
  ∀ s : State, 0 < s.sp.val →
    ∃ t, exec .ret s = .next t ∧ (∀ k : Fin 16, k.val + 1 = s.sp.val → t.pc = s.stack[k]) ∧ t.sp.val + 1 = s.sp.val ∧
      t = { s with pc := t.pc, sp := t.sp }

/-- Fault entry: a call with 16 entries and a return with none restore `pc` to the instruction's own address, latch their code and change
nothing else (spec/60_exceptions.md section 1, decisions D5 and D6). -/
def Obligations.StackErrorsEnterFault : Prop :=
  (∀ (nnn : Addr) (s : State), s.sp.val = 16 → exec (.call nnn) s = .next { s with pc := s.pc - 2, fault := .stackOverflow }) ∧
  ∀ s : State, s.sp.val = 0 → exec .ret s = .next { s with pc := s.pc - 2, fault := .stackUnderflow }

/-- Calling and at once returning comes back to the instruction after the call, with the stack's depth as before
(spec/41_control_flow.md; the source's testable property S9 of spec/95_test_vectors.md). -/
def Obligations.CallThenReturnComesBack : Prop :=
  ∀ (nnn : Addr) (s : State), s.fault = .noFault → s.sp.val < 16 → decode s.fetch = .call nnn →
    decode (s.memReadWord (zextAddr nnn)) = .ret →
    ∃ t u, step s = .next t ∧ step t = .next u ∧ u.pc = s.pc + 2 ∧ u.sp = s.sp ∧ u.fault = .noFault

/-- R83 to R86: the four compare-and-skip instructions move `pc` by 2 more if their condition holds, and change nothing else. -/
def Obligations.SkipsCompareRegisters : Prop :=
  RowIs 0xF000 0x3000 (fun w => .seImm (opX w) (opNN w)) ∧ RowIs 0xF000 0x4000 (fun w => .sneImm (opX w) (opNN w)) ∧
  RowIs 0xF000 0x5000 (fun w => .seReg (opX w) (opY w)) ∧ RowIs 0xF000 0x9000 (fun w => .sneReg (opX w) (opY w)) ∧
  (∀ (x : Reg) (nn : Byte) (s : State), ∃ t, exec (.seImm x nn) s = .next t ∧ t = { s with pc := t.pc } ∧
    (s.reg x = nn → t.pc = s.pc + 2) ∧ (s.reg x ≠ nn → t.pc = s.pc)) ∧
  (∀ (x : Reg) (nn : Byte) (s : State), ∃ t, exec (.sneImm x nn) s = .next t ∧ t = { s with pc := t.pc } ∧
    (s.reg x ≠ nn → t.pc = s.pc + 2) ∧ (s.reg x = nn → t.pc = s.pc)) ∧
  (∀ (x y : Reg) (s : State), ∃ t, exec (.seReg x y) s = .next t ∧ t = { s with pc := t.pc } ∧
    (s.reg x = s.reg y → t.pc = s.pc + 2) ∧ (s.reg x ≠ s.reg y → t.pc = s.pc)) ∧
  (∀ (x y : Reg) (s : State), ∃ t, exec (.sneReg x y) s = .next t ∧ t = { s with pc := t.pc } ∧
    (s.reg x ≠ s.reg y → t.pc = s.pc + 2) ∧ (s.reg x = s.reg y → t.pc = s.pc))

/-! ## Load and ALU -/

/-- R90 and R92: `6XNN` and `8XY0` load a register, `VF` like any other, and touch no flag. -/
def Obligations.LoadsWriteOneRegister : Prop :=
  RowIs 0xF000 0x6000 (fun w => .ldImm (opX w) (opNN w)) ∧ RowIs 0xF00F 0x8000 (fun w => .ldReg (opX w) (opY w)) ∧
  (∀ (x : Reg) (nn : Byte) (s : State), ∃ t, exec (.ldImm x nn) s = .next t ∧ t.reg x = nn ∧ OnlyRegs [x] s t) ∧
  (∀ (x y : Reg) (s : State), ∃ t, exec (.ldReg x y) s = .next t ∧ t.reg x = s.reg y ∧ OnlyRegs [x] s t)

/-- R91: `7XNN` adds modulo 256 and touches no flag. -/
def Obligations.AddImmediateWraps : Prop :=
  RowIs 0xF000 0x7000 (fun w => .addImm (opX w) (opNN w)) ∧
  ∀ (x : Reg) (nn : Byte) (s : State), ∃ t, exec (.addImm x nn) s = .next t ∧
    (t.reg x).toNat = ((s.reg x).toNat + nn.toNat) % 256 ∧ OnlyRegs [x] s t

/-- R93 to R95: the logic operations work bit by bit and then force `VF` to 0, also with `X` = 15. -/
def Obligations.LogicOperationsClearVf : Prop :=
  RowIs 0xF00F 0x8001 (fun w => .orReg (opX w) (opY w)) ∧ RowIs 0xF00F 0x8002 (fun w => .andReg (opX w) (opY w)) ∧
  RowIs 0xF00F 0x8003 (fun w => .xorReg (opX w) (opY w)) ∧
  (∀ (x y : Reg) (s : State), ∃ t, exec (.orReg x y) s = .next t ∧ t.reg vf = 0 ∧ OnlyRegs [x, vf] s t ∧
    (x ≠ vf → ∀ k < 8, (t.reg x).getLsbD k = ((s.reg x).getLsbD k || (s.reg y).getLsbD k))) ∧
  (∀ (x y : Reg) (s : State), ∃ t, exec (.andReg x y) s = .next t ∧ t.reg vf = 0 ∧ OnlyRegs [x, vf] s t ∧
    (x ≠ vf → ∀ k < 8, (t.reg x).getLsbD k = ((s.reg x).getLsbD k && (s.reg y).getLsbD k))) ∧
  (∀ (x y : Reg) (s : State), ∃ t, exec (.xorReg x y) s = .next t ∧ t.reg vf = 0 ∧ OnlyRegs [x, vf] s t ∧
    (x ≠ vf → ∀ k < 8, (t.reg x).getLsbD k = ((s.reg x).getLsbD k ^^ (s.reg y).getLsbD k)))

/-- R96, R97, R99: sum and differences modulo 256 with carry and NOT-borrow in `VF`. With `X` = 15 the rules say that `VF` ends as the
flag (their write order is decision D9). -/
def Obligations.AddAndSubtractSetVf : Prop :=
  RowIs 0xF00F 0x8004 (fun w => .addReg (opX w) (opY w)) ∧ RowIs 0xF00F 0x8005 (fun w => .subReg (opX w) (opY w)) ∧
  RowIs 0xF00F 0x8007 (fun w => .subnReg (opX w) (opY w)) ∧
  (∀ (x y : Reg) (s : State), ∃ t, exec (.addReg x y) s = .next t ∧ OnlyRegs [x, vf] s t ∧
    (x ≠ vf → (t.reg x).toNat = ((s.reg x).toNat + (s.reg y).toNat) % 256) ∧
    FlagIs t ((s.reg x).toNat + (s.reg y).toNat > 255)) ∧
  (∀ (x y : Reg) (s : State), ∃ t, exec (.subReg x y) s = .next t ∧ OnlyRegs [x, vf] s t ∧
    (x ≠ vf → (t.reg x).toNat = ((s.reg x).toNat + 256 - (s.reg y).toNat) % 256) ∧
    FlagIs t ((s.reg x).toNat ≥ (s.reg y).toNat)) ∧
  (∀ (x y : Reg) (s : State), ∃ t, exec (.subnReg x y) s = .next t ∧ OnlyRegs [x, vf] s t ∧
    (x ≠ vf → (t.reg x).toNat = ((s.reg y).toNat + 256 - (s.reg x).toNat) % 256) ∧
    FlagIs t ((s.reg y).toNat ≥ (s.reg x).toNat))

/-- R98 and R100: the shifts take `v[Y]`, move by one, and put the bit shifted out in `VF`, which is what `VF` ends as with `X` = 15
(their write order is decision D9). -/
def Obligations.ShiftsTakeVy : Prop :=
  RowIs 0xF00F 0x8006 (fun w => .shrReg (opX w) (opY w)) ∧ RowIs 0xF00F 0x800E (fun w => .shlReg (opX w) (opY w)) ∧
  (∀ (x y : Reg) (s : State), ∃ t, exec (.shrReg x y) s = .next t ∧ OnlyRegs [x, vf] s t ∧
    (x ≠ vf → (t.reg x).toNat = (s.reg y).toNat / 2) ∧ (t.reg vf).toNat = (s.reg y).toNat % 2) ∧
  (∀ (x y : Reg) (s : State), ∃ t, exec (.shlReg x y) s = .next t ∧ OnlyRegs [x, vf] s t ∧
    (x ≠ vf → (t.reg x).toNat = (s.reg y).toNat * 2 % 256) ∧ (t.reg vf).toNat = (s.reg y).toNat / 128)

/-! ## Index register and memory -/

/-- R105 and R107: `ANNN` loads `i` with the zero-extended address, `FX29` with the glyph address of the whole byte `v[X]`. -/
def Obligations.IndexLoads : Prop :=
  RowIs 0xF000 0xA000 (fun w => .ldI (opNNN w)) ∧ RowIs 0xF0FF 0xF029 (fun w => .ldFont (opX w)) ∧
  (∀ (nnn : Addr) (s : State), ∃ t, exec (.ldI nnn) s = .next t ∧ t.i.toNat = nnn.toNat ∧ t = { s with i := t.i }) ∧
  (∀ (x : Reg) (s : State), ∃ t, exec (.ldFont x) s = .next t ∧ t.i.toNat = 0x050 + 5 * (s.reg x).toNat ∧ t = { s with i := t.i })

/-- `FX1E` adds to `i` modulo 2^16 and touches no flag (spec/43_index_and_memory.md; the wrap at 2^16 is decision D4). -/
def Obligations.IndexAddWrapsAtSixteenBits : Prop :=
  ∀ (x : Reg) (s : State), ∃ t, exec (.addI x) s = .next t ∧ t.i.toNat = (s.i.toNat + (s.reg x).toNat) % 65536 ∧ t = { s with i := t.i }

/-- R108: `FX33` stores the three decimal digits of `v[X]` at `i`, `i + 1`, `i + 2`, each modulo 2^16 and then masked to 12 bits; every
other byte and every other piece of state, `i` included, is as it was. -/
def Obligations.DecimalDigitsStored : Prop :=
  RowIs 0xF0FF 0xF033 (fun w => .ldBcd (opX w)) ∧
  ∀ (x : Reg) (s : State), ∃ t, exec (.ldBcd x) s = .next t ∧ t = { s with memory := t.memory } ∧
    (t.memory.read (s.i.toNat % 4096)).toNat = (s.reg x).toNat / 100 ∧
    (t.memory.read ((s.i.toNat + 1) % 65536 % 4096)).toNat = (s.reg x).toNat / 10 % 10 ∧
    (t.memory.read ((s.i.toNat + 2) % 65536 % 4096)).toNat = (s.reg x).toNat % 10 ∧
    ∀ a, a ≠ s.i.toNat % 4096 → a ≠ (s.i.toNat + 1) % 65536 % 4096 → a ≠ (s.i.toNat + 2) % 65536 % 4096 →
      t.memory.read a = s.memory.read a

/-- R109: `FX55` stores `v[0]` to `v[X]` from `i` up, addresses masked, advances `i` by `X + 1`, and changes no other byte, no register and
nothing else. -/
def Obligations.BlockStoreAdvancesIndex : Prop :=
  RowIs 0xF0FF 0xF055 (fun w => .storeRegs (opX w)) ∧
  ∀ (x : Reg) (s : State), ∃ t, exec (.storeRegs x) s = .next t ∧ t = { s with i := t.i, memory := t.memory } ∧
    t.i.toNat = (s.i.toNat + x.val + 1) % 65536 ∧
    (∀ k ≤ x, t.memory.read ((s.i.toNat + k.val) % 65536 % 4096) = s.reg k) ∧
    ∀ a, (∀ k ≤ x, a ≠ (s.i.toNat + k.val) % 65536 % 4096) → t.memory.read a = s.memory.read a

/-- R110: `FX65` loads `v[0]` to `v[X]` from `i` up, addresses masked and taken before the instruction, advances `i` by `X + 1`, and changes no
register above `X`, no memory and nothing else. -/
def Obligations.BlockLoadAdvancesIndex : Prop :=
  RowIs 0xF0FF 0xF065 (fun w => .loadRegs (opX w)) ∧
  ∀ (x : Reg) (s : State), ∃ t, exec (.loadRegs x) s = .next t ∧ t = { s with i := t.i, v := t.v } ∧
    t.i.toNat = (s.i.toNat + x.val + 1) % 65536 ∧
    (∀ k ≤ x, t.reg k = s.memory.read ((s.i.toNat + k.val) % 65536 % 4096)) ∧ ∀ k, x < k → t.reg k = s.reg k

/-- `FX55` then `FX65` with the same `X` and `i` restores the registers, whatever they held in between, and `i` advances by `X + 1` after
each (spec/43_index_and_memory.md; the source's testable property S7 of spec/95_test_vectors.md). -/
def Obligations.StoreThenLoadRestoresRegisters : Prop :=
  ∀ (x : Reg) (s t u : State) (w : Vector Byte 16), exec (.storeRegs x) s = .next t →
    exec (.loadRegs x) { t with i := s.i, v := w } = .next u →
    (∀ k ≤ x, u.reg k = s.reg k) ∧ t.i = s.i + BitVec.ofNat 16 (x.val + 1) ∧ u.i = t.i

/-! ## Display -/

/-- R115: `00E0` turns every cell off and marks a redraw needed, pending or not, and changes nothing else. -/
def Obligations.ClearScreen : Prop :=
  RowIs 0xF0FF 0x00E0 (fun _ => .cls) ∧
  ∀ s : State, ∃ t, exec .cls s = .next t ∧ (∀ x y, pixel t.display x y = false) ∧ t.isRedrawNeeded = true ∧
    t = { s with display := t.display, isRedrawNeeded := t.isRedrawNeeded }

/-- `DXYN` with no redraw pending toggles exactly the cells a set sprite bit falls on, clipped at the edges, sets `VF` to 1 if one of them was
on and to 0 if none was, and marks a redraw needed; nothing else changes (spec/44_display.md; corners by decision D10, bit and
row order by decision D11). -/
def Obligations.DrawTogglesCoveredCells : Prop :=
  ∀ (x y : Reg) (n : Fin 16) (s : State), s.isRedrawNeeded = false →
    ∃ t, exec (.drw x y n) s = .next t ∧ t.isRedrawNeeded = true ∧
      (∀ (px : Fin 64) (py : Fin 32),
        (Covers s ((s.reg x).toNat % 64) ((s.reg y).toNat % 32) n.val px.val py.val → pixel t.display px py = !pixel s.display px py) ∧
        (¬Covers s ((s.reg x).toNat % 64) ((s.reg y).toNat % 32) n.val px.val py.val → pixel t.display px py = pixel s.display px py)) ∧
      FlagIs t (∃ (px : Fin 64) (py : Fin 32),
        Covers s ((s.reg x).toNat % 64) ((s.reg y).toNat % 32) n.val px.val py.val ∧ pixel s.display px py = true) ∧
      (∀ k, k ≠ vf → t.reg k = s.reg k) ∧ t = { s with v := t.v, display := t.display, isRedrawNeeded := t.isRedrawNeeded }

/-- `DXYN` with a redraw pending stalls: `pc` goes back and nothing else changes, `VF` included (spec/44_display.md, decision D10). -/
def Obligations.DrawWaitsForRenderer : Prop :=
  ∀ (x y : Reg) (n : Fin 16) (s : State), s.isRedrawNeeded = true → exec (.drw x y n) s = .next { s with pc := s.pc - 2 }

/-- Drawing the same sprite twice at the same place, with a `FrameConsumed` between, restores the display, and the second `VF` tells
whether the first draw turned a cell on (spec/44_display.md; the source's testable property S8 of spec/95_test_vectors.md). -/
def Obligations.DoubleDrawRestoresDisplay : Prop :=
  ∀ (x y : Reg) (n : Fin 16) (s t u : State), x ≠ vf → y ≠ vf → s.isRedrawNeeded = false → exec (.drw x y n) s = .next t →
    exec (.drw x y n) (frameConsumedEvent t) = .next u →
    u.display = s.display ∧
    FlagIs u (∃ (px : Fin 64) (py : Fin 32),
      Covers s ((s.reg x).toNat % 64) ((s.reg y).toNat % 32) n.val px.val py.val ∧ pixel s.display px py = false)

/-! ## Keys, timers, random -/

/-- `EX9E` and `EXA1` skip by the state of the key whose number is the low four bits of `v[X]` (spec/45_keys_timers_random.md; for `v[X]` above
15 the mask is decision D12). -/
def Obligations.KeySkipsTestOneKey : Prop :=
  (∀ (x : Reg) (k : Key) (s : State), k.val = (s.reg x).toNat % 16 → ∃ t, exec (.skp x) s = .next t ∧ t = { s with pc := t.pc } ∧
    (s.keyDown k = true → t.pc = s.pc + 2) ∧ (s.keyDown k = false → t.pc = s.pc)) ∧
  (∀ (x : Reg) (k : Key) (s : State), k.val = (s.reg x).toNat % 16 → ∃ t, exec (.sknp x) s = .next t ∧ t = { s with pc := t.pc } ∧
    (s.keyDown k = false → t.pc = s.pc + 2) ∧ (s.keyDown k = true → t.pc = s.pc))

/-- R122: `FX0A` takes the lowest key that is down, at once; while none is down it stalls and changes nothing but `pc` back. -/
def Obligations.KeyWaitTakesLowestKey : Prop :=
  RowIs 0xF0FF 0xF00A (fun w => .ldKey (opX w)) ∧
  (∀ (x : Reg) (k : Key) (s : State), s.keyDown k = true → (∀ j < k, s.keyDown j = false) →
    ∃ t, exec (.ldKey x) s = .next t ∧ (t.reg x).toNat = k.val ∧ OnlyRegs [x] s t) ∧
  (∀ (x : Reg) (s : State), (∀ k, s.keyDown k = false) → exec (.ldKey x) s = .next { s with pc := s.pc - 2 })

/-- R123 to R125: the timer moves; after `FX18` the output `snd_on` is 1 exactly if the value is not 0. -/
def Obligations.TimerMoves : Prop :=
  RowIs 0xF0FF 0xF007 (fun w => .ldFromDelay (opX w)) ∧ RowIs 0xF0FF 0xF015 (fun w => .ldDelay (opX w)) ∧
  RowIs 0xF0FF 0xF018 (fun w => .ldSound (opX w)) ∧
  (∀ (x : Reg) (s : State), ∃ t, exec (.ldFromDelay x) s = .next t ∧ t.reg x = s.delayTimer ∧ OnlyRegs [x] s t) ∧
  (∀ (x : Reg) (s : State), exec (.ldDelay x) s = .next { s with delayTimer := s.reg x }) ∧
  (∀ (x : Reg) (s : State), ∃ t, exec (.ldSound x) s = .next t ∧ t = { s with soundTimer := s.reg x } ∧
    ((outputs t).sndOn = true ↔ s.reg x ≠ 0))

/-- `CXNN` puts the next draw, masked by `NN`, in `v[X]`: it consumes exactly one draw, a bit that is 0 in `NN` is 0 in `v[X]`, and nothing
else changes. The draw is a free value: the statement holds for every sequence of draws (spec/45_keys_timers_random.md,
decision D13; the draw counter is the model's own, notes/assumptions/1.md). -/
def Obligations.RandomByteIsMasked : Prop :=
  ∀ (x : Reg) (nn : Byte) (s : State), ∃ t, exec (.rnd x nn) s = .next t ∧ t.draws = s.draws + 1 ∧
    (∀ k < 8, (t.reg x).getLsbD k = ((Config.rnd s.draws).getLsbD k && nn.getLsbD k)) ∧
    (nn = 0 → t.reg x = 0) ∧ (∀ j, j ≠ x → t.reg j = s.reg j) ∧ t = { s with v := t.v, draws := t.draws }

/-! ## The no-op -/

/-- R75: a word that no row of the opcode map selects advances `pc` by 2 and changes nothing else. -/
def Obligations.UnrecognisedWordsAreNoOps : Prop :=
  (∀ (w : Word) (s : State), exec (.nop w) s = .next s) ∧
  ∀ s : State, s.fault = .noFault → (∀ r ∈ opcodeMap, s.fetch &&& r.mask ≠ r.bits) → step s = .next { s with pc := s.pc + 2 }
end

