-- ==== Sys2Proof/Laws/Decode.lean ====
section
/-! SUPPORT. The fields of a word as numbers, and the words the encoder packs as numbers: what a proof about decoding needs, so that
it is arithmetic from there on. -/

namespace Sys2Proof

theorem extract_toNat (w : Word) (k n : Nat) : (w.extractLsb' k n).toNat = w.toNat / 2 ^ k % 2 ^ n := by
  simp [BitVec.extractLsb'_toNat, Nat.shiftRight_eq_div_pow]

theorem opFamily_toNat (w : Word) : (opFamily w).toNat = w.toNat / 4096 := by
  have := w.isLt
  simp only [opFamily, extract_toNat]; omega

theorem opX_val (w : Word) : (opX w).val = w.toNat / 256 % 16 := by
  have : (opX w).val = (w.extractLsb' 8 4).toNat := rfl
  rw [this, extract_toNat]; rfl

theorem opY_val (w : Word) : (opY w).val = w.toNat / 16 % 16 := by
  have : (opY w).val = (w.extractLsb' 4 4).toNat := rfl
  rw [this, extract_toNat]; rfl

theorem opN_toNat (w : Word) : (opN w).toNat = w.toNat % 16 := by
  simp only [opN, extract_toNat]; omega

theorem opNN_toNat (w : Word) : (opNN w).toNat = w.toNat % 256 := by
  simp only [opNN, extract_toNat]; omega

theorem opNNN_toNat (w : Word) : (opNNN w).toNat = w.toNat % 4096 := by
  simp only [opNNN, extract_toNat]; omega

theorem hiByte_toNat (w : Word) : (hiByte w).toNat = w.toNat / 256 := by
  have := w.isLt
  simp only [hiByte, extract_toNat]; omega

theorem loByte_toNat (w : Word) : (loByte w).toNat = w.toNat % 256 := by
  simp only [loByte, extract_toNat]; omega

theorem joinBytes_toNat (hi lo : Byte) : (joinBytes hi lo).toNat = hi.toNat * 256 + lo.toNat := by
  have h : (joinBytes hi lo).toNat = hi.toNat <<< 8 ||| lo.toNat := BitVec.toNat_append hi lo
  rw [h, ← Nat.shiftLeft_add_eq_or_of_lt lo.isLt, Nat.shiftLeft_eq]

/-- The two bytes of a word make the word again. -/
theorem joinBytes_hiByte_loByte (w : Word) : joinBytes (hiByte w) (loByte w) = w := by
  apply BitVec.eq_of_toNat_eq
  rw [joinBytes_toNat, hiByte_toNat, loByte_toNat]
  omega

@[simp] theorem hiByte_joinBytes (hi lo : Byte) : hiByte (joinBytes hi lo) = hi := by
  apply BitVec.eq_of_toNat_eq
  have := lo.isLt
  rw [hiByte_toNat, joinBytes_toNat]; omega

@[simp] theorem loByte_joinBytes (hi lo : Byte) : loByte (joinBytes hi lo) = lo := by
  apply BitVec.eq_of_toNat_eq
  have := lo.isLt
  rw [loByte_toNat, joinBytes_toNat]; omega

theorem packNibbles_toNat {f x y n : Nat} (hf : f < 16) (hx : x < 16) (hy : y < 16) (hn : n < 16) :
    (packNibbles f x y n).toNat = f * 4096 + x * 256 + y * 16 + n := by
  simp only [packNibbles, BitVec.toNat_ofNat]; omega

theorem packA_toNat {f : Nat} (hf : f < 16) (nnn : Addr) : (packA f nnn).toNat = f * 4096 + nnn.toNat := by
  have := nnn.isLt
  simp only [packA, BitVec.toNat_ofNat]; omega

theorem packXI_toNat {f : Nat} (hf : f < 16) (x : Reg) (nn : Byte) :
    (packXI f x nn).toNat = f * 4096 + x.val * 256 + nn.toNat := by
  have := nn.isLt
  simp only [packXI, BitVec.toNat_ofNat]; omega

/-- A word is its four nibbles. -/
theorem eq_packNibbles (w : Word) : w = packNibbles (w.toNat / 4096) (w.toNat / 256 % 16) (w.toNat / 16 % 16) (w.toNat % 16) := by
  apply BitVec.eq_of_toNat_eq
  have := w.isLt
  rw [packNibbles_toNat (by omega) (by omega) (by omega) (by omega)]; omega

/-- Two bytes always decode, to the instruction of their word; the bytes after them are left. -/
theorem decodeBytes_cons (hi lo : Byte) (rest : List Byte) :
    decodeBytes (hi :: lo :: rest) = .ok (decode (joinBytes hi lo), rest) := rfl

/-- A table row's word, laid out big-endian, decodes as that word. -/
theorem decodeTableWord_eq (nbits w : Nat) : decodeTableWord nbits w = some (decode (tableWord nbits w)) := by
  rw [decodeTableWord, decodeBytes_cons, joinBytes_hiByte_loByte]

/-! The three masks of the opcode map, as numbers. -/

theorem append_toNat {m n : Nat} (a : BitVec m) (b : BitVec n) : (a ++ b).toNat = a.toNat * 2 ^ n + b.toNat := by
  rw [BitVec.toNat_append, ← Nat.shiftLeft_add_eq_or_of_lt b.isLt, Nat.shiftLeft_eq]

theorem and_F000 (w : Word) : w &&& (0xF000 : Word) = opFamily w ++ 0#12 := by
  ext k hk
  rw [BitVec.getElem_and, BitVec.getElem_append]
  interval_cases k <;> simp [opFamily]

theorem and_F0FF (w : Word) : w &&& (0xF0FF : Word) = opFamily w ++ 0#4 ++ opNN w := by
  apply BitVec.eq_of_getLsbD_eq
  intro k hk
  rw [BitVec.getLsbD_and, BitVec.getLsbD_append, BitVec.getLsbD_append]
  interval_cases k <;> simp [opFamily, opNN]

theorem and_F00F (w : Word) : w &&& (0xF00F : Word) = opFamily w ++ 0#8 ++ opN w := by
  apply BitVec.eq_of_getLsbD_eq
  intro k hk
  rw [BitVec.getLsbD_and, BitVec.getLsbD_append, BitVec.getLsbD_append]
  interval_cases k <;> simp [opFamily, opN]

theorem and_F000_toNat (w : Word) : (w &&& (0xF000 : Word)).toNat = w.toNat / 4096 * 4096 := by
  rw [and_F000, append_toNat, opFamily_toNat, BitVec.toNat_ofNat]; omega

theorem and_F0FF_toNat (w : Word) : (w &&& (0xF0FF : Word)).toNat = w.toNat / 4096 * 4096 + w.toNat % 256 := by
  rw [and_F0FF, append_toNat, append_toNat, opFamily_toNat, opNN_toNat, BitVec.toNat_ofNat]; omega

theorem and_F00F_toNat (w : Word) : (w &&& (0xF00F : Word)).toNat = w.toNat / 4096 * 4096 + w.toNat % 16 := by
  rw [and_F00F, append_toNat, append_toNat, opFamily_toNat, opN_toNat, BitVec.toNat_ofNat]; omega

/-- What it means, in numbers, that a row of each mask selects a word. -/
theorem selects_F000 (m : String) (b w : Word) :
    OpRow.selects ⟨m, (0xF000 : Word), b⟩ w = true ↔ w.toNat / 4096 * 4096 = b.toNat := by
  simp only [OpRow.selects, beq_iff_eq, ← BitVec.toNat_inj, and_F000_toNat]

theorem selects_F0FF (m : String) (b w : Word) :
    OpRow.selects ⟨m, (0xF0FF : Word), b⟩ w = true ↔ w.toNat / 4096 * 4096 + w.toNat % 256 = b.toNat := by
  simp only [OpRow.selects, beq_iff_eq, ← BitVec.toNat_inj, and_F0FF_toNat]

theorem selects_F00F (m : String) (b w : Word) :
    OpRow.selects ⟨m, (0xF00F : Word), b⟩ w = true ↔ w.toNat / 4096 * 4096 + w.toNat % 16 = b.toNat := by
  simp only [OpRow.selects, beq_iff_eq, ← BitVec.toNat_inj, and_F00F_toNat]

/-! What it means, field by field, that a row of each mask selects a word. -/

theorem fields_of_F000 {w b : Word} (h : w &&& (0xF000 : Word) = b) : opFamily w = opFamily b := by
  apply BitVec.eq_of_toNat_eq
  rw [← h, opFamily_toNat, opFamily_toNat, and_F000_toNat]; omega

theorem fields_of_F0FF {w b : Word} (h : w &&& (0xF0FF : Word) = b) : opFamily w = opFamily b ∧ opNN w = opNN b := by
  constructor <;> apply BitVec.eq_of_toNat_eq
  · rw [← h, opFamily_toNat, opFamily_toNat, and_F0FF_toNat]; omega
  · rw [← h, opNN_toNat, opNN_toNat, and_F0FF_toNat]; omega

theorem fields_of_F00F {w b : Word} (h : w &&& (0xF00F : Word) = b) : opFamily w = opFamily b ∧ opN w = opN b := by
  constructor <;> apply BitVec.eq_of_toNat_eq
  · rw [← h, opFamily_toNat, opFamily_toNat, and_F00F_toNat]; omega
  · rw [← h, opN_toNat, opN_toNat, and_F00F_toNat]; omega

end Sys2Proof
end

