-- ==== Sys2Proof/Laws/State.lean ====
section
/-! SUPPORT. The record laws: for each update of the state, what each field is afterwards, true by rfl; and the same for the views
`reg`, `memRead` and `keyDown`. No later proof unfolds a record update. -/

namespace Sys2Proof.Machine

variable (s : State)

/-! ### `State.setReg` -/

@[simp] theorem State.setReg_v (k : Reg) (b : Byte) : (s.setReg k b).v = s.v.set k b := rfl
@[simp] theorem State.setReg_pc (k : Reg) (b : Byte) : (s.setReg k b).pc = s.pc := rfl
@[simp] theorem State.setReg_i (k : Reg) (b : Byte) : (s.setReg k b).i = s.i := rfl
@[simp] theorem State.setReg_stack (k : Reg) (b : Byte) : (s.setReg k b).stack = s.stack := rfl
@[simp] theorem State.setReg_sp (k : Reg) (b : Byte) : (s.setReg k b).sp = s.sp := rfl
@[simp] theorem State.setReg_delayTimer (k : Reg) (b : Byte) : (s.setReg k b).delayTimer = s.delayTimer := rfl
@[simp] theorem State.setReg_soundTimer (k : Reg) (b : Byte) : (s.setReg k b).soundTimer = s.soundTimer := rfl
@[simp] theorem State.setReg_memory (k : Reg) (b : Byte) : (s.setReg k b).memory = s.memory := rfl
@[simp] theorem State.setReg_display (k : Reg) (b : Byte) : (s.setReg k b).display = s.display := rfl
@[simp] theorem State.setReg_isRedrawNeeded (k : Reg) (b : Byte) : (s.setReg k b).isRedrawNeeded = s.isRedrawNeeded := rfl
@[simp] theorem State.setReg_keyboard (k : Reg) (b : Byte) : (s.setReg k b).keyboard = s.keyboard := rfl
@[simp] theorem State.setReg_fault (k : Reg) (b : Byte) : (s.setReg k b).fault = s.fault := rfl
@[simp] theorem State.setReg_draws (k : Reg) (b : Byte) : (s.setReg k b).draws = s.draws := rfl
@[simp] theorem State.setReg_memRead (k : Reg) (b : Byte) (w : Word) : (s.setReg k b).memRead w = s.memRead w := rfl
@[simp] theorem State.setReg_keyDown (k : Reg) (b : Byte) (q : Key) : (s.setReg k b).keyDown q = s.keyDown q := rfl

/-! ### `State.setI` -/

@[simp] theorem State.setI_v (a : Word) : (s.setI a).v = s.v := rfl
@[simp] theorem State.setI_pc (a : Word) : (s.setI a).pc = s.pc := rfl
@[simp] theorem State.setI_i (a : Word) : (s.setI a).i = a := rfl
@[simp] theorem State.setI_stack (a : Word) : (s.setI a).stack = s.stack := rfl
@[simp] theorem State.setI_sp (a : Word) : (s.setI a).sp = s.sp := rfl
@[simp] theorem State.setI_delayTimer (a : Word) : (s.setI a).delayTimer = s.delayTimer := rfl
@[simp] theorem State.setI_soundTimer (a : Word) : (s.setI a).soundTimer = s.soundTimer := rfl
@[simp] theorem State.setI_memory (a : Word) : (s.setI a).memory = s.memory := rfl
@[simp] theorem State.setI_display (a : Word) : (s.setI a).display = s.display := rfl
@[simp] theorem State.setI_isRedrawNeeded (a : Word) : (s.setI a).isRedrawNeeded = s.isRedrawNeeded := rfl
@[simp] theorem State.setI_keyboard (a : Word) : (s.setI a).keyboard = s.keyboard := rfl
@[simp] theorem State.setI_fault (a : Word) : (s.setI a).fault = s.fault := rfl
@[simp] theorem State.setI_draws (a : Word) : (s.setI a).draws = s.draws := rfl
@[simp] theorem State.setI_reg (a : Word) (r : Reg) : (s.setI a).reg r = s.reg r := rfl
@[simp] theorem State.setI_memRead (a : Word) (w : Word) : (s.setI a).memRead w = s.memRead w := rfl
@[simp] theorem State.setI_keyDown (a : Word) (q : Key) : (s.setI a).keyDown q = s.keyDown q := rfl

/-! ### `State.jumpTo` -/

@[simp] theorem State.jumpTo_v (a : Word) : (s.jumpTo a).v = s.v := rfl
@[simp] theorem State.jumpTo_pc (a : Word) : (s.jumpTo a).pc = a := rfl
@[simp] theorem State.jumpTo_i (a : Word) : (s.jumpTo a).i = s.i := rfl
@[simp] theorem State.jumpTo_stack (a : Word) : (s.jumpTo a).stack = s.stack := rfl
@[simp] theorem State.jumpTo_sp (a : Word) : (s.jumpTo a).sp = s.sp := rfl
@[simp] theorem State.jumpTo_delayTimer (a : Word) : (s.jumpTo a).delayTimer = s.delayTimer := rfl
@[simp] theorem State.jumpTo_soundTimer (a : Word) : (s.jumpTo a).soundTimer = s.soundTimer := rfl
@[simp] theorem State.jumpTo_memory (a : Word) : (s.jumpTo a).memory = s.memory := rfl
@[simp] theorem State.jumpTo_display (a : Word) : (s.jumpTo a).display = s.display := rfl
@[simp] theorem State.jumpTo_isRedrawNeeded (a : Word) : (s.jumpTo a).isRedrawNeeded = s.isRedrawNeeded := rfl
@[simp] theorem State.jumpTo_keyboard (a : Word) : (s.jumpTo a).keyboard = s.keyboard := rfl
@[simp] theorem State.jumpTo_fault (a : Word) : (s.jumpTo a).fault = s.fault := rfl
@[simp] theorem State.jumpTo_draws (a : Word) : (s.jumpTo a).draws = s.draws := rfl
@[simp] theorem State.jumpTo_reg (a : Word) (r : Reg) : (s.jumpTo a).reg r = s.reg r := rfl
@[simp] theorem State.jumpTo_memRead (a : Word) (w : Word) : (s.jumpTo a).memRead w = s.memRead w := rfl
@[simp] theorem State.jumpTo_keyDown (a : Word) (q : Key) : (s.jumpTo a).keyDown q = s.keyDown q := rfl

/-! ### `State.setDelay` -/

@[simp] theorem State.setDelay_v (b : Byte) : (s.setDelay b).v = s.v := rfl
@[simp] theorem State.setDelay_pc (b : Byte) : (s.setDelay b).pc = s.pc := rfl
@[simp] theorem State.setDelay_i (b : Byte) : (s.setDelay b).i = s.i := rfl
@[simp] theorem State.setDelay_stack (b : Byte) : (s.setDelay b).stack = s.stack := rfl
@[simp] theorem State.setDelay_sp (b : Byte) : (s.setDelay b).sp = s.sp := rfl
@[simp] theorem State.setDelay_delayTimer (b : Byte) : (s.setDelay b).delayTimer = b := rfl
@[simp] theorem State.setDelay_soundTimer (b : Byte) : (s.setDelay b).soundTimer = s.soundTimer := rfl
@[simp] theorem State.setDelay_memory (b : Byte) : (s.setDelay b).memory = s.memory := rfl
@[simp] theorem State.setDelay_display (b : Byte) : (s.setDelay b).display = s.display := rfl
@[simp] theorem State.setDelay_isRedrawNeeded (b : Byte) : (s.setDelay b).isRedrawNeeded = s.isRedrawNeeded := rfl
@[simp] theorem State.setDelay_keyboard (b : Byte) : (s.setDelay b).keyboard = s.keyboard := rfl
@[simp] theorem State.setDelay_fault (b : Byte) : (s.setDelay b).fault = s.fault := rfl
@[simp] theorem State.setDelay_draws (b : Byte) : (s.setDelay b).draws = s.draws := rfl
@[simp] theorem State.setDelay_reg (b : Byte) (r : Reg) : (s.setDelay b).reg r = s.reg r := rfl
@[simp] theorem State.setDelay_memRead (b : Byte) (w : Word) : (s.setDelay b).memRead w = s.memRead w := rfl
@[simp] theorem State.setDelay_keyDown (b : Byte) (q : Key) : (s.setDelay b).keyDown q = s.keyDown q := rfl

/-! ### `State.setSound` -/

@[simp] theorem State.setSound_v (b : Byte) : (s.setSound b).v = s.v := rfl
@[simp] theorem State.setSound_pc (b : Byte) : (s.setSound b).pc = s.pc := rfl
@[simp] theorem State.setSound_i (b : Byte) : (s.setSound b).i = s.i := rfl
@[simp] theorem State.setSound_stack (b : Byte) : (s.setSound b).stack = s.stack := rfl
@[simp] theorem State.setSound_sp (b : Byte) : (s.setSound b).sp = s.sp := rfl
@[simp] theorem State.setSound_delayTimer (b : Byte) : (s.setSound b).delayTimer = s.delayTimer := rfl
@[simp] theorem State.setSound_soundTimer (b : Byte) : (s.setSound b).soundTimer = b := rfl
@[simp] theorem State.setSound_memory (b : Byte) : (s.setSound b).memory = s.memory := rfl
@[simp] theorem State.setSound_display (b : Byte) : (s.setSound b).display = s.display := rfl
@[simp] theorem State.setSound_isRedrawNeeded (b : Byte) : (s.setSound b).isRedrawNeeded = s.isRedrawNeeded := rfl
@[simp] theorem State.setSound_keyboard (b : Byte) : (s.setSound b).keyboard = s.keyboard := rfl
@[simp] theorem State.setSound_fault (b : Byte) : (s.setSound b).fault = s.fault := rfl
@[simp] theorem State.setSound_draws (b : Byte) : (s.setSound b).draws = s.draws := rfl
@[simp] theorem State.setSound_reg (b : Byte) (r : Reg) : (s.setSound b).reg r = s.reg r := rfl
@[simp] theorem State.setSound_memRead (b : Byte) (w : Word) : (s.setSound b).memRead w = s.memRead w := rfl
@[simp] theorem State.setSound_keyDown (b : Byte) (q : Key) : (s.setSound b).keyDown q = s.keyDown q := rfl

/-! ### `State.memWrite` -/

@[simp] theorem State.memWrite_v (a : Word) (b : Byte) : (s.memWrite a b).v = s.v := rfl
@[simp] theorem State.memWrite_pc (a : Word) (b : Byte) : (s.memWrite a b).pc = s.pc := rfl
@[simp] theorem State.memWrite_i (a : Word) (b : Byte) : (s.memWrite a b).i = s.i := rfl
@[simp] theorem State.memWrite_stack (a : Word) (b : Byte) : (s.memWrite a b).stack = s.stack := rfl
@[simp] theorem State.memWrite_sp (a : Word) (b : Byte) : (s.memWrite a b).sp = s.sp := rfl
@[simp] theorem State.memWrite_delayTimer (a : Word) (b : Byte) : (s.memWrite a b).delayTimer = s.delayTimer := rfl
@[simp] theorem State.memWrite_soundTimer (a : Word) (b : Byte) : (s.memWrite a b).soundTimer = s.soundTimer := rfl
@[simp] theorem State.memWrite_memory (a : Word) (b : Byte) : (s.memWrite a b).memory = s.memory.write (maskAddr a) b := rfl
@[simp] theorem State.memWrite_display (a : Word) (b : Byte) : (s.memWrite a b).display = s.display := rfl
@[simp] theorem State.memWrite_isRedrawNeeded (a : Word) (b : Byte) : (s.memWrite a b).isRedrawNeeded = s.isRedrawNeeded := rfl
@[simp] theorem State.memWrite_keyboard (a : Word) (b : Byte) : (s.memWrite a b).keyboard = s.keyboard := rfl
@[simp] theorem State.memWrite_fault (a : Word) (b : Byte) : (s.memWrite a b).fault = s.fault := rfl
@[simp] theorem State.memWrite_draws (a : Word) (b : Byte) : (s.memWrite a b).draws = s.draws := rfl
@[simp] theorem State.memWrite_reg (a : Word) (b : Byte) (r : Reg) : (s.memWrite a b).reg r = s.reg r := rfl
@[simp] theorem State.memWrite_keyDown (a : Word) (b : Byte) (q : Key) : (s.memWrite a b).keyDown q = s.keyDown q := rfl

/-! ### `State.advance` -/

@[simp] theorem State.advance_v : (s.advance).v = s.v := rfl
@[simp] theorem State.advance_pc : (s.advance).pc = s.pc + 2 := rfl
@[simp] theorem State.advance_i : (s.advance).i = s.i := rfl
@[simp] theorem State.advance_stack : (s.advance).stack = s.stack := rfl
@[simp] theorem State.advance_sp : (s.advance).sp = s.sp := rfl
@[simp] theorem State.advance_delayTimer : (s.advance).delayTimer = s.delayTimer := rfl
@[simp] theorem State.advance_soundTimer : (s.advance).soundTimer = s.soundTimer := rfl
@[simp] theorem State.advance_memory : (s.advance).memory = s.memory := rfl
@[simp] theorem State.advance_display : (s.advance).display = s.display := rfl
@[simp] theorem State.advance_isRedrawNeeded : (s.advance).isRedrawNeeded = s.isRedrawNeeded := rfl
@[simp] theorem State.advance_keyboard : (s.advance).keyboard = s.keyboard := rfl
@[simp] theorem State.advance_fault : (s.advance).fault = s.fault := rfl
@[simp] theorem State.advance_draws : (s.advance).draws = s.draws := rfl
@[simp] theorem State.advance_reg (r : Reg) : (s.advance).reg r = s.reg r := rfl
@[simp] theorem State.advance_memRead (w : Word) : (s.advance).memRead w = s.memRead w := rfl
@[simp] theorem State.advance_keyDown (q : Key) : (s.advance).keyDown q = s.keyDown q := rfl

/-! ### `State.stall` -/

@[simp] theorem State.stall_v : (s.stall).v = s.v := rfl
@[simp] theorem State.stall_pc : (s.stall).pc = s.pc - 2 := rfl
@[simp] theorem State.stall_i : (s.stall).i = s.i := rfl
@[simp] theorem State.stall_stack : (s.stall).stack = s.stack := rfl
@[simp] theorem State.stall_sp : (s.stall).sp = s.sp := rfl
@[simp] theorem State.stall_delayTimer : (s.stall).delayTimer = s.delayTimer := rfl
@[simp] theorem State.stall_soundTimer : (s.stall).soundTimer = s.soundTimer := rfl
@[simp] theorem State.stall_memory : (s.stall).memory = s.memory := rfl
@[simp] theorem State.stall_display : (s.stall).display = s.display := rfl
@[simp] theorem State.stall_isRedrawNeeded : (s.stall).isRedrawNeeded = s.isRedrawNeeded := rfl
@[simp] theorem State.stall_keyboard : (s.stall).keyboard = s.keyboard := rfl
@[simp] theorem State.stall_fault : (s.stall).fault = s.fault := rfl
@[simp] theorem State.stall_draws : (s.stall).draws = s.draws := rfl
@[simp] theorem State.stall_reg (r : Reg) : (s.stall).reg r = s.reg r := rfl
@[simp] theorem State.stall_memRead (w : Word) : (s.stall).memRead w = s.memRead w := rfl
@[simp] theorem State.stall_keyDown (q : Key) : (s.stall).keyDown q = s.keyDown q := rfl

/-! ### `State.raiseFault` -/

@[simp] theorem State.raiseFault_v (c : FaultCode) : (s.raiseFault c).v = s.v := rfl
@[simp] theorem State.raiseFault_pc (c : FaultCode) : (s.raiseFault c).pc = s.pc - 2 := rfl
@[simp] theorem State.raiseFault_i (c : FaultCode) : (s.raiseFault c).i = s.i := rfl
@[simp] theorem State.raiseFault_stack (c : FaultCode) : (s.raiseFault c).stack = s.stack := rfl
@[simp] theorem State.raiseFault_sp (c : FaultCode) : (s.raiseFault c).sp = s.sp := rfl
@[simp] theorem State.raiseFault_delayTimer (c : FaultCode) : (s.raiseFault c).delayTimer = s.delayTimer := rfl
@[simp] theorem State.raiseFault_soundTimer (c : FaultCode) : (s.raiseFault c).soundTimer = s.soundTimer := rfl
@[simp] theorem State.raiseFault_memory (c : FaultCode) : (s.raiseFault c).memory = s.memory := rfl
@[simp] theorem State.raiseFault_display (c : FaultCode) : (s.raiseFault c).display = s.display := rfl
@[simp] theorem State.raiseFault_isRedrawNeeded (c : FaultCode) : (s.raiseFault c).isRedrawNeeded = s.isRedrawNeeded := rfl
@[simp] theorem State.raiseFault_keyboard (c : FaultCode) : (s.raiseFault c).keyboard = s.keyboard := rfl
@[simp] theorem State.raiseFault_fault (c : FaultCode) : (s.raiseFault c).fault = c := rfl
@[simp] theorem State.raiseFault_draws (c : FaultCode) : (s.raiseFault c).draws = s.draws := rfl
@[simp] theorem State.raiseFault_reg (c : FaultCode) (r : Reg) : (s.raiseFault c).reg r = s.reg r := rfl
@[simp] theorem State.raiseFault_memRead (c : FaultCode) (w : Word) : (s.raiseFault c).memRead w = s.memRead w := rfl
@[simp] theorem State.raiseFault_keyDown (c : FaultCode) (q : Key) : (s.raiseFault c).keyDown q = s.keyDown q := rfl

/-! ### `State.showDisplay` -/

@[simp] theorem State.showDisplay_v (d : Display) : (s.showDisplay d).v = s.v := rfl
@[simp] theorem State.showDisplay_pc (d : Display) : (s.showDisplay d).pc = s.pc := rfl
@[simp] theorem State.showDisplay_i (d : Display) : (s.showDisplay d).i = s.i := rfl
@[simp] theorem State.showDisplay_stack (d : Display) : (s.showDisplay d).stack = s.stack := rfl
@[simp] theorem State.showDisplay_sp (d : Display) : (s.showDisplay d).sp = s.sp := rfl
@[simp] theorem State.showDisplay_delayTimer (d : Display) : (s.showDisplay d).delayTimer = s.delayTimer := rfl
@[simp] theorem State.showDisplay_soundTimer (d : Display) : (s.showDisplay d).soundTimer = s.soundTimer := rfl
@[simp] theorem State.showDisplay_memory (d : Display) : (s.showDisplay d).memory = s.memory := rfl
@[simp] theorem State.showDisplay_display (d : Display) : (s.showDisplay d).display = d := rfl
@[simp] theorem State.showDisplay_isRedrawNeeded (d : Display) : (s.showDisplay d).isRedrawNeeded = true := rfl
@[simp] theorem State.showDisplay_keyboard (d : Display) : (s.showDisplay d).keyboard = s.keyboard := rfl
@[simp] theorem State.showDisplay_fault (d : Display) : (s.showDisplay d).fault = s.fault := rfl
@[simp] theorem State.showDisplay_draws (d : Display) : (s.showDisplay d).draws = s.draws := rfl
@[simp] theorem State.showDisplay_reg (d : Display) (r : Reg) : (s.showDisplay d).reg r = s.reg r := rfl
@[simp] theorem State.showDisplay_memRead (d : Display) (w : Word) : (s.showDisplay d).memRead w = s.memRead w := rfl
@[simp] theorem State.showDisplay_keyDown (d : Display) (q : Key) : (s.showDisplay d).keyDown q = s.keyDown q := rfl

/-! ### `State.advanceI` -/

@[simp] theorem State.advanceI_v (x : Reg) : (s.advanceI x).v = s.v := rfl
@[simp] theorem State.advanceI_pc (x : Reg) : (s.advanceI x).pc = s.pc := rfl
@[simp] theorem State.advanceI_i (x : Reg) : (s.advanceI x).i = s.i + BitVec.ofNat 16 (x.val + 1) := rfl
@[simp] theorem State.advanceI_stack (x : Reg) : (s.advanceI x).stack = s.stack := rfl
@[simp] theorem State.advanceI_sp (x : Reg) : (s.advanceI x).sp = s.sp := rfl
@[simp] theorem State.advanceI_delayTimer (x : Reg) : (s.advanceI x).delayTimer = s.delayTimer := rfl
@[simp] theorem State.advanceI_soundTimer (x : Reg) : (s.advanceI x).soundTimer = s.soundTimer := rfl
@[simp] theorem State.advanceI_memory (x : Reg) : (s.advanceI x).memory = s.memory := rfl
@[simp] theorem State.advanceI_display (x : Reg) : (s.advanceI x).display = s.display := rfl
@[simp] theorem State.advanceI_isRedrawNeeded (x : Reg) : (s.advanceI x).isRedrawNeeded = s.isRedrawNeeded := rfl
@[simp] theorem State.advanceI_keyboard (x : Reg) : (s.advanceI x).keyboard = s.keyboard := rfl
@[simp] theorem State.advanceI_fault (x : Reg) : (s.advanceI x).fault = s.fault := rfl
@[simp] theorem State.advanceI_draws (x : Reg) : (s.advanceI x).draws = s.draws := rfl
@[simp] theorem State.advanceI_reg (x : Reg) (r : Reg) : (s.advanceI x).reg r = s.reg r := rfl
@[simp] theorem State.advanceI_memRead (x : Reg) (w : Word) : (s.advanceI x).memRead w = s.memRead w := rfl
@[simp] theorem State.advanceI_keyDown (x : Reg) (q : Key) : (s.advanceI x).keyDown q = s.keyDown q := rfl

/-! ### The state after a draw -/

@[simp] theorem State.draw8_v : s.draw8.2.v = s.v := rfl
@[simp] theorem State.draw8_pc : s.draw8.2.pc = s.pc := rfl
@[simp] theorem State.draw8_i : s.draw8.2.i = s.i := rfl
@[simp] theorem State.draw8_stack : s.draw8.2.stack = s.stack := rfl
@[simp] theorem State.draw8_sp : s.draw8.2.sp = s.sp := rfl
@[simp] theorem State.draw8_delayTimer : s.draw8.2.delayTimer = s.delayTimer := rfl
@[simp] theorem State.draw8_soundTimer : s.draw8.2.soundTimer = s.soundTimer := rfl
@[simp] theorem State.draw8_memory : s.draw8.2.memory = s.memory := rfl
@[simp] theorem State.draw8_display : s.draw8.2.display = s.display := rfl
@[simp] theorem State.draw8_isRedrawNeeded : s.draw8.2.isRedrawNeeded = s.isRedrawNeeded := rfl
@[simp] theorem State.draw8_keyboard : s.draw8.2.keyboard = s.keyboard := rfl
@[simp] theorem State.draw8_fault : s.draw8.2.fault = s.fault := rfl
@[simp] theorem State.draw8_draws : s.draw8.2.draws = s.draws + 1 := rfl
@[simp] theorem State.draw8_reg (r : Reg) : s.draw8.2.reg r = s.reg r := rfl

/-! ### `tickEvent` -/

@[simp] theorem tickEvent_v : (tickEvent s).v = s.v := rfl
@[simp] theorem tickEvent_pc : (tickEvent s).pc = s.pc := rfl
@[simp] theorem tickEvent_i : (tickEvent s).i = s.i := rfl
@[simp] theorem tickEvent_stack : (tickEvent s).stack = s.stack := rfl
@[simp] theorem tickEvent_sp : (tickEvent s).sp = s.sp := rfl
@[simp] theorem tickEvent_delayTimer : (tickEvent s).delayTimer = countDown s.delayTimer := rfl
@[simp] theorem tickEvent_soundTimer : (tickEvent s).soundTimer = countDown s.soundTimer := rfl
@[simp] theorem tickEvent_memory : (tickEvent s).memory = s.memory := rfl
@[simp] theorem tickEvent_display : (tickEvent s).display = s.display := rfl
@[simp] theorem tickEvent_isRedrawNeeded : (tickEvent s).isRedrawNeeded = s.isRedrawNeeded := rfl
@[simp] theorem tickEvent_keyboard : (tickEvent s).keyboard = s.keyboard := rfl
@[simp] theorem tickEvent_fault : (tickEvent s).fault = s.fault := rfl
@[simp] theorem tickEvent_draws : (tickEvent s).draws = s.draws := rfl

/-! ### `keyWriteEvent` -/

@[simp] theorem keyWriteEvent_v (k : Key) (b : Bool) : (keyWriteEvent k b s).v = s.v := rfl
@[simp] theorem keyWriteEvent_pc (k : Key) (b : Bool) : (keyWriteEvent k b s).pc = s.pc := rfl
@[simp] theorem keyWriteEvent_i (k : Key) (b : Bool) : (keyWriteEvent k b s).i = s.i := rfl
@[simp] theorem keyWriteEvent_stack (k : Key) (b : Bool) : (keyWriteEvent k b s).stack = s.stack := rfl
@[simp] theorem keyWriteEvent_sp (k : Key) (b : Bool) : (keyWriteEvent k b s).sp = s.sp := rfl
@[simp] theorem keyWriteEvent_delayTimer (k : Key) (b : Bool) : (keyWriteEvent k b s).delayTimer = s.delayTimer := rfl
@[simp] theorem keyWriteEvent_soundTimer (k : Key) (b : Bool) : (keyWriteEvent k b s).soundTimer = s.soundTimer := rfl
@[simp] theorem keyWriteEvent_memory (k : Key) (b : Bool) : (keyWriteEvent k b s).memory = s.memory := rfl
@[simp] theorem keyWriteEvent_display (k : Key) (b : Bool) : (keyWriteEvent k b s).display = s.display := rfl
@[simp] theorem keyWriteEvent_isRedrawNeeded (k : Key) (b : Bool) : (keyWriteEvent k b s).isRedrawNeeded = s.isRedrawNeeded := rfl
@[simp] theorem keyWriteEvent_keyboard (k : Key) (b : Bool) : (keyWriteEvent k b s).keyboard = s.keyboard.set k b := rfl
@[simp] theorem keyWriteEvent_fault (k : Key) (b : Bool) : (keyWriteEvent k b s).fault = s.fault := rfl
@[simp] theorem keyWriteEvent_draws (k : Key) (b : Bool) : (keyWriteEvent k b s).draws = s.draws := rfl

/-! ### `frameConsumedEvent` -/

@[simp] theorem frameConsumedEvent_v : (frameConsumedEvent s).v = s.v := rfl
@[simp] theorem frameConsumedEvent_pc : (frameConsumedEvent s).pc = s.pc := rfl
@[simp] theorem frameConsumedEvent_i : (frameConsumedEvent s).i = s.i := rfl
@[simp] theorem frameConsumedEvent_stack : (frameConsumedEvent s).stack = s.stack := rfl
@[simp] theorem frameConsumedEvent_sp : (frameConsumedEvent s).sp = s.sp := rfl
@[simp] theorem frameConsumedEvent_delayTimer : (frameConsumedEvent s).delayTimer = s.delayTimer := rfl
@[simp] theorem frameConsumedEvent_soundTimer : (frameConsumedEvent s).soundTimer = s.soundTimer := rfl
@[simp] theorem frameConsumedEvent_memory : (frameConsumedEvent s).memory = s.memory := rfl
@[simp] theorem frameConsumedEvent_display : (frameConsumedEvent s).display = s.display := rfl
@[simp] theorem frameConsumedEvent_isRedrawNeeded : (frameConsumedEvent s).isRedrawNeeded = false := rfl
@[simp] theorem frameConsumedEvent_keyboard : (frameConsumedEvent s).keyboard = s.keyboard := rfl
@[simp] theorem frameConsumedEvent_fault : (frameConsumedEvent s).fault = s.fault := rfl
@[simp] theorem frameConsumedEvent_draws : (frameConsumedEvent s).draws = s.draws := rfl

/-! ### `State.skipIf`: only `pc` can differ -/

@[simp] theorem State.skipIf_true : s.skipIf true = s.jumpTo (s.pc + 2) := rfl

@[simp] theorem State.skipIf_false : s.skipIf false = s := rfl

theorem State.skipIf_only_pc (c : Bool) : s.skipIf c = { s with pc := if c then s.pc + 2 else s.pc } := by cases c <;> rfl

@[simp] theorem State.skipIf_v (c : Bool) : (s.skipIf c).v = s.v := by cases c <;> rfl
@[simp] theorem State.skipIf_pc (c : Bool) : (s.skipIf c).pc = if c then s.pc + 2 else s.pc := by cases c <;> rfl
@[simp] theorem State.skipIf_i (c : Bool) : (s.skipIf c).i = s.i := by cases c <;> rfl
@[simp] theorem State.skipIf_stack (c : Bool) : (s.skipIf c).stack = s.stack := by cases c <;> rfl
@[simp] theorem State.skipIf_sp (c : Bool) : (s.skipIf c).sp = s.sp := by cases c <;> rfl
@[simp] theorem State.skipIf_delayTimer (c : Bool) : (s.skipIf c).delayTimer = s.delayTimer := by cases c <;> rfl
@[simp] theorem State.skipIf_soundTimer (c : Bool) : (s.skipIf c).soundTimer = s.soundTimer := by cases c <;> rfl
@[simp] theorem State.skipIf_memory (c : Bool) : (s.skipIf c).memory = s.memory := by cases c <;> rfl
@[simp] theorem State.skipIf_display (c : Bool) : (s.skipIf c).display = s.display := by cases c <;> rfl
@[simp] theorem State.skipIf_isRedrawNeeded (c : Bool) : (s.skipIf c).isRedrawNeeded = s.isRedrawNeeded := by cases c <;> rfl
@[simp] theorem State.skipIf_keyboard (c : Bool) : (s.skipIf c).keyboard = s.keyboard := by cases c <;> rfl
@[simp] theorem State.skipIf_fault (c : Bool) : (s.skipIf c).fault = s.fault := by cases c <;> rfl
@[simp] theorem State.skipIf_draws (c : Bool) : (s.skipIf c).draws = s.draws := by cases c <;> rfl

end Sys2Proof.Machine
end

