-- ==== Sys2Proof/Laws/Memory.lean ====
section
/-! SUPPORT. The laws of memory: a read after a write, and the canonical form, which every memory operation keeps. -/

namespace Sys2Proof.Machine

theorem lookupCell_eraseCell_same (a : Nat) (cs : List Host.Cell) : lookupCell a (eraseCell a cs) = none := by
  induction cs with
  | nil => rfl
  | cons c cs ih =>
    simp only [eraseCell, List.filter_cons] at ih ⊢
    by_cases h : c.1 = a
    · simpa [h] using ih
    · simpa [h, lookupCell] using ih

theorem lookupCell_eraseCell_other {a a' : Nat} (h : a' ≠ a) (cs : List Host.Cell) :
    lookupCell a' (eraseCell a cs) = lookupCell a' cs := by
  induction cs with
  | nil => rfl
  | cons c cs ih =>
    simp only [eraseCell, List.filter_cons] at ih ⊢
    by_cases hc : c.1 = a
    · have : ¬ c.1 = a' := by omega
      simpa [hc, lookupCell, this, Ne.symm h] using ih
    · simp [hc, lookupCell, ih]

theorem lookupCell_insertCell_other {c : Host.Cell} {a' : Nat} (h : a' ≠ c.1) (cs : List Host.Cell) :
    lookupCell a' (insertCell c cs) = lookupCell a' cs := by
  induction cs with
  | nil => simp [insertCell, lookupCell, Ne.symm h]
  | cons d ds ih =>
    unfold insertCell
    split
    · simp [lookupCell, Ne.symm h]
    · simp [lookupCell, ih]

theorem lookupCell_insertCell_same (c : Host.Cell) (cs : List Host.Cell) (h : lookupCell c.1 cs = none) :
    lookupCell c.1 (insertCell c cs) = some c.2 := by
  induction cs with
  | nil => simp [insertCell, lookupCell]
  | cons d ds ih =>
    unfold insertCell
    split
    · simp [lookupCell]
    · by_cases hd : d.1 = c.1
      · simp [lookupCell, hd] at h
      · simp only [lookupCell, hd, if_false] at h ⊢
        exact ih h

@[simp] theorem Memory.write_font (m : Memory) (a : Nat) (b : Byte) : (m.write a b).font = m.font := rfl

@[simp] theorem Memory.write_unlisted (m : Memory) (a : Nat) (b : Byte) (a' : Nat) :
    (m.write a b).unlisted a' = m.unlisted a' := rfl

/-- What a write does to a read: the byte written at its address, nothing anywhere else. -/
theorem Memory.read_write (m : Memory) (a a' : Nat) (b : Byte) :
    (m.write a b).read a' = if a' = a then b else m.read a' := by
  unfold Memory.read
  rw [Memory.write_unlisted]
  by_cases h : a' = a
  · subst h
    by_cases hb : b = m.unlisted a'
    · simp [Memory.write, ← hb, lookupCell_eraseCell_same]
    · simp [Memory.write, hb, lookupCell_insertCell_same (a', b) _ (lookupCell_eraseCell_same a' m.cells)]
  · by_cases hb : b = m.unlisted a
    · simp [Memory.write, ← hb, h, lookupCell_eraseCell_other h]
    · simp [Memory.write, hb, h, lookupCell_insertCell_other (c := (a, b)) h, lookupCell_eraseCell_other h]

@[simp] theorem Memory.read_write_same (m : Memory) (a : Nat) (b : Byte) : (m.write a b).read a = b := by
  simp [Memory.read_write]

theorem Memory.read_write_other (m : Memory) {a a' : Nat} (b : Byte) (h : a' ≠ a) : (m.write a b).read a' = m.read a' := by
  simp [Memory.read_write, h]

/-- The bytes written from `a` up, and no others, are read back. -/
theorem Memory.read_writeBytes (m : Memory) (a : Nat) (bs : List Byte) (a' : Nat) :
    (m.writeBytes a bs).read a' = if h : a ≤ a' ∧ a' - a < bs.length then bs[a' - a] else m.read a' := by
  induction bs generalizing m a with
  | nil => simp [Memory.writeBytes]
  | cons b bs ih =>
    rw [Memory.writeBytes, ih]
    rcases Nat.lt_trichotomy a' a with h | h | h
    · rw [dif_neg (by omega), dif_neg (by omega), Memory.read_write_other _ _ (by omega)]
    · subst h
      rw [dif_neg (by omega), dif_pos (by simp), Memory.read_write_same]
      simp
    · obtain ⟨n, rfl⟩ : ∃ n, a' = a + 1 + n := ⟨a' - (a + 1), by omega⟩
      have e1 : a + 1 + n - (a + 1) = n := by omega
      have e2 : a + 1 + n - a = n + 1 := by omega
      by_cases hn : n < bs.length
      · rw [dif_pos ⟨by omega, by omega⟩, dif_pos ⟨by omega, by simp; omega⟩]
        simp only [e1, e2, List.getElem_cons_succ]
      · rw [dif_neg (by omega), dif_neg (by simp; omega), Memory.read_write_other _ _ (by omega)]

/-! ## The canonical form -/

theorem cellsRising_cons {c : Host.Cell} {cs : List Host.Cell} :
    cellsRising (c :: cs) = true ↔ (∀ d ∈ cs, c.1 < d.1) ∧ cellsRising cs = true := by
  induction cs generalizing c with
  | nil => simp [cellsRising]
  | cons d ds ih =>
    simp only [cellsRising, Bool.and_eq_true, decide_eq_true_eq, List.mem_cons, forall_eq_or_imp]
    constructor
    · rintro ⟨h, hr⟩
      exact ⟨⟨h, fun e he => Nat.lt_trans h ((ih.1 hr).1 e he)⟩, hr⟩
    · rintro ⟨⟨h, -⟩, hr⟩
      exact ⟨h, hr⟩

theorem cellsRising_eraseCell (a : Nat) {cs : List Host.Cell} (h : cellsRising cs = true) :
    cellsRising (eraseCell a cs) = true := by
  induction cs with
  | nil => rfl
  | cons c cs ih =>
    rw [cellsRising_cons] at h
    simp only [eraseCell, List.filter_cons]
    split
    · exact cellsRising_cons.2 ⟨fun d hd => h.1 d (List.mem_of_mem_filter hd), ih h.2⟩
    · exact ih h.2

theorem mem_insertCell {c d : Host.Cell} {cs : List Host.Cell} : d ∈ insertCell c cs ↔ d = c ∨ d ∈ cs := by
  induction cs with
  | nil => simp [insertCell]
  | cons e es ih =>
    unfold insertCell
    split
    · simp
    · simp [ih]; tauto

theorem cellsRising_insertCell {c : Host.Cell} {cs : List Host.Cell} (h : cellsRising cs = true)
    (hc : ∀ d ∈ cs, d.1 ≠ c.1) : cellsRising (insertCell c cs) = true := by
  induction cs with
  | nil => rfl
  | cons d ds ih =>
    have hd := hc d (by simp)
    have hr := cellsRising_cons.1 h
    unfold insertCell
    split
    · rename_i hlt
      refine cellsRising_cons.2 ⟨fun e he => ?_, h⟩
      rcases List.mem_cons.1 he with rfl | he
      · exact hlt
      · exact Nat.lt_trans hlt (hr.1 e he)
    · refine cellsRising_cons.2 ⟨fun e he => ?_, ih hr.2 (fun e he => hc e (by simp [he]))⟩
      rcases mem_insertCell.1 he with rfl | he
      · omega
      · exact hr.1 e he

/-- The canonical form in words. -/
theorem Memory.wf_iff (m : Memory) :
    m.wf = true ↔ cellsRising m.cells = true ∧ ∀ c ∈ m.cells, c.1 < 4096 ∧ c.2 ≠ m.unlisted c.1 := by
  simp [Memory.wf]

/-- A write inside the address space keeps the canonical form. -/
theorem Memory.write_wf {m : Memory} (h : m.wf = true) {a : Nat} (ha : a < 4096) (b : Byte) : (m.write a b).wf = true := by
  obtain ⟨hr, hc⟩ := (Memory.wf_iff m).1 h
  have he : ∀ c ∈ eraseCell a m.cells, c ∈ m.cells ∧ c.1 ≠ a := by
    intro c hm
    simpa [eraseCell] using hm
  rw [Memory.wf_iff]
  by_cases hb : b = m.unlisted a
  · simp only [Memory.write, ← hb, if_true]
    exact ⟨cellsRising_eraseCell a hr, fun c hm => hc c (he c hm).1⟩
  · simp only [Memory.write, hb, if_false]
    refine ⟨cellsRising_insertCell (cellsRising_eraseCell a hr) (fun d hd => (he d hd).2), fun c hm => ?_⟩
    rcases mem_insertCell.1 hm with rfl | hm
    · exact ⟨ha, hb⟩
    · exact hc c (he c hm).1

/-- Writing bytes inside the address space keeps the canonical form. -/
theorem Memory.writeBytes_wf {m : Memory} (h : m.wf = true) {a : Nat} {bs : List Byte} (ha : a + bs.length ≤ 4096) :
    (m.writeBytes a bs).wf = true := by
  induction bs generalizing m a with
  | nil => exact h
  | cons b bs ih =>
    simp only [List.length_cons] at ha
    exact ih (Memory.write_wf h (by omega) b) (by omega)

@[simp] theorem Memory.writeBytes_font (m : Memory) (a : Nat) (bs : List Byte) : (m.writeBytes a bs).font = m.font := by
  induction bs generalizing m a with
  | nil => rfl
  | cons b bs ih => rw [Memory.writeBytes, ih, Memory.write_font]

theorem maskAddr_lt (a : Word) : maskAddr a < 4096 := Nat.mod_lt _ (by decide)

/-- A store through the memory port keeps the canonical form. -/
theorem State.memWrite_wf {s : State} (h : s.memory.wf = true) (a : Word) (b : Byte) : (s.memWrite a b).memory.wf = true :=
  Memory.write_wf h (maskAddr_lt a) b

/-- A read after a store through the memory port. -/
theorem State.memRead_memWrite (s : State) (a c : Word) (b : Byte) :
    (s.memWrite a b).memRead c = if maskAddr c = maskAddr a then b else s.memRead c :=
  Memory.read_write s.memory (maskAddr a) (maskAddr c) b

/-- Memory with nothing listed is in its canonical form, whatever `FONT` is. -/
theorem resetWith_memory_wf (font : Font) (n : Nat) : (State.resetWith font n).memory.wf = true := rfl

/-- Two neighbouring addresses stay apart under the mask. -/
theorem maskAddr_succ_ne (a : Word) : maskAddr (a + 1) ≠ maskAddr a := by
  have h : (a + 1).toNat = (a.toNat + 1) % 65536 := by simp [BitVec.toNat_add]
  simp only [maskAddr, h]
  omega

/-- A word placed at `pc` is the word fetched there. -/
theorem State.fetch_placeWord (s : State) (w : Word) : (s.placeWord w).fetch = w := by
  have h1 : (s.placeWord w).memRead s.pc = hiByte w := by
    rw [State.placeWord, State.memRead_memWrite, if_neg (Ne.symm (maskAddr_succ_ne s.pc)), State.memRead_memWrite, if_pos rfl]
  have h2 : (s.placeWord w).memRead (s.pc + 1) = loByte w := by
    rw [State.placeWord, State.memRead_memWrite, if_pos rfl]
  show joinBytes ((s.placeWord w).memRead s.pc) ((s.placeWord w).memRead (s.pc + 1)) = w
  rw [h1, h2, joinBytes_hiByte_loByte]

end Sys2Proof.Machine
end

