-- ==== Sys2Proof/Laws/Ops.lean ====
section
/-! SUPPORT. What each shared operation over registers, stack, keys and memory does, said once. -/

namespace Sys2Proof.Machine

/-! ## Registers and flags -/

theorem State.reg_setReg (s : State) (k j : Reg) (b : Byte) : (s.setReg k b).reg j = if j = k then b else s.reg j := by
  simp only [State.reg, State.setReg, Fin.getElem_fin, Vector.getElem_set, Fin.ext_iff]
  by_cases h : k.val = j.val
  · simp [h]
  · simp [h, Ne.symm h]

@[simp] theorem State.reg_setReg_same (s : State) (k : Reg) (b : Byte) : (s.setReg k b).reg k = b := by
  simp [State.reg_setReg]

theorem State.reg_setReg_other (s : State) {k j : Reg} (b : Byte) (h : j ≠ k) : (s.setReg k b).reg j = s.reg j := by
  simp [State.reg_setReg, h]

/-- A result and a flag: `VF` holds the flag whatever the destination was, the destination the result. -/
theorem State.reg_setRegFlag (s : State) (x j : Reg) (r : Byte) (f : Bool) :
    (s.setRegFlag x r f).reg j = if j = vf then flagByte f else if j = x then r else s.reg j := by
  simp [State.setRegFlag, State.reg_setReg]

/-- A result and a flag change the registers only. -/
theorem State.setRegFlag_only_v (s : State) (x : Reg) (r : Byte) (f : Bool) :
    s.setRegFlag x r f = { s with v := (s.setRegFlag x r f).v } := rfl

/-- Two states with the same registers read one by one have the same register file. -/
theorem State.v_ext {s t : State} (h : ∀ k, s.reg k = t.reg k) : s.v = t.v := by
  ext n hn
  rw [h ⟨n, hn⟩ |> fun e => (show s.v[n] = t.v[n] from e)]

theorem flagByte_toNat (f : Bool) : (flagByte f).toNat = if f then 1 else 0 := by cases f <;> rfl

theorem flagByte_eq_one (f : Bool) : flagByte f = 1 ↔ f = true := by cases f <;> decide

theorem hundredsDigit_toNat (b : Byte) : (hundredsDigit b).toNat = b.toNat / 100 := by
  have := b.isLt
  simp only [hundredsDigit, BitVec.toNat_ofNat]; omega

theorem tensDigit_toNat (b : Byte) : (tensDigit b).toNat = b.toNat / 10 % 10 := by
  simp only [tensDigit, BitVec.toNat_ofNat]; omega

theorem unitsDigit_toNat (b : Byte) : (unitsDigit b).toNat = b.toNat % 10 := by
  simp only [unitsDigit, BitVec.toNat_ofNat]; omega

theorem zextAddr_toNat (nnn : Addr) : (zextAddr nnn).toNat = nnn.toNat := by
  have := nnn.isLt
  simp only [zextAddr, BitVec.toNat_setWidth]; omega

theorem zextByte_toNat (b : Byte) : (zextByte b).toNat = b.toNat := by
  have := b.isLt
  simp only [zextByte, BitVec.toNat_setWidth]; omega

theorem glyphAddr_toNat (b : Byte) : (glyphAddr b).toNat = 0x50 + 5 * b.toNat := by
  have := b.isLt
  have e : (glyphAddr b).toNat = (0x50 + 5 * (zextByte b).toNat % 65536) % 65536 := rfl
  rw [e, zextByte_toNat]; omega

theorem keyNumber_val (b : Byte) : (keyNumber b).val = b.toNat % 16 := by
  have : (keyNumber b).val = (b.extractLsb' 0 4).toNat := rfl
  rw [this, BitVec.extractLsb'_toNat]; rfl

/-! ## `pc` -/

/-- A stall after the advance is the state before it. -/
@[simp] theorem State.stall_advance (s : State) : s.advance.stall = s := by
  simp [State.stall, State.advance]

/-- A fault after the advance leaves the state before it, but for `fault`. -/
@[simp] theorem State.raiseFault_advance (s : State) (c : FaultCode) : s.advance.raiseFault c = { s with fault := c } := by
  simp [State.raiseFault, State.advance]

theorem State.halted_iff (s : State) : s.halted = true ↔ s.fault ≠ .noFault := by
  simp [State.halted]

theorem State.halted_eq_false_iff (s : State) : s.halted = false ↔ s.fault = .noFault := by
  simp [State.halted]

/-! ## The call stack -/

/-- A push is refused exactly with 16 entries on the stack. -/
theorem State.push_eq_none_iff (s : State) (a : Word) : s.push a = none ↔ s.sp.val = 16 := by
  have := s.sp.isLt
  unfold State.push
  split
  · simp; omega
  · simp; omega

/-- What a push does. -/
theorem State.push_eq_some {s t : State} {a : Word} (h : s.push a = some t) :
    ∃ hlt : s.sp.val < 16, t = { s with stack := s.stack.set s.sp.val a hlt, sp := ⟨s.sp.val + 1, by omega⟩ } := by
  unfold State.push at h
  split at h
  · rename_i hlt
    exact ⟨hlt, (Option.some.inj h).symm⟩
  · cases h

/-- A pop is refused exactly with no entry on the stack. -/
theorem State.pop_eq_none_iff (s : State) : s.pop = none ↔ s.sp.val = 0 := by
  unfold State.pop
  split
  · simp; omega
  · simp; omega

/-- What a pop does. -/
theorem State.pop_eq_some {s t : State} {a : Word} (h : s.pop = some (a, t)) :
    ∃ hlt : 0 < s.sp.val, a = s.stack[s.sp.val - 1]'(by omega) ∧ t = { s with sp := ⟨s.sp.val - 1, by omega⟩ } := by
  unfold State.pop at h
  split at h
  · rename_i hlt
    obtain ⟨rfl, rfl⟩ := Prod.mk.inj (Option.some.inj h)
    exact ⟨hlt, rfl, rfl⟩
  · cases h

/-! ## Block transfer -/

theorem mem_regsUpTo {x k : Reg} : k ∈ regsUpTo x ↔ k ≤ x := by
  simp [regsUpTo]

/-- The masked address `base + k`, as a number. -/
theorem maskAddr_add (base : Word) (k : Nat) : maskAddr (base + BitVec.ofNat 16 k) = (base.toNat + k) % 65536 % 4096 := by
  simp [maskAddr, BitVec.toNat_add]

/-- The addresses `base + k` of 16 registers stay apart under the mask. -/
theorem maskAddr_add_inj (base : Word) {j k : Nat} (hj : j < 16) (hk : k < 16)
    (h : maskAddr (base + BitVec.ofNat 16 j) = maskAddr (base + BitVec.ofNat 16 k)) : j = k := by
  simp only [maskAddr, BitVec.toNat_add, BitVec.toNat_ofNat] at h
  omega

/-- A block load changes the registers only. -/
theorem State.loadList_only_v (s : State) (base : Word) (ks : List Reg) :
    s.loadList base ks = { s with v := (s.loadList base ks).v } := by
  suffices ∀ t : State, ks.foldl (fun t k => State.setReg t k (s.memRead (base + BitVec.ofNat 16 k.val))) t =
      { t with v := (ks.foldl (fun t k => State.setReg t k (s.memRead (base + BitVec.ofNat 16 k.val))) t).v } from this s
  induction ks with
  | nil => intro t; rfl
  | cons k ks ih => intro t; rw [List.foldl_cons, ih]; rfl

/-- A block load puts `memory[base + k]` into each register k of the list, and leaves the others. -/
theorem State.reg_loadList (s : State) (base : Word) (ks : List Reg) (j : Reg) :
    (s.loadList base ks).reg j = if j ∈ ks then s.memRead (base + BitVec.ofNat 16 j.val) else s.reg j := by
  suffices ∀ t : State, (ks.foldl (fun t k => State.setReg t k (s.memRead (base + BitVec.ofNat 16 k.val))) t).reg j =
      if j ∈ ks then s.memRead (base + BitVec.ofNat 16 j.val) else t.reg j from this s
  induction ks with
  | nil => intro t; simp
  | cons k ks ih =>
    intro t
    rw [List.foldl_cons, ih]
    by_cases h : j = k
    · subst h; simp
    · simp [h, State.reg_setReg]

/-- A block store changes memory only. -/
theorem State.storeList_only_memory (s : State) (base : Word) (ks : List Reg) :
    s.storeList base ks = { s with memory := (s.storeList base ks).memory } := by
  suffices ∀ t : State, ks.foldl (fun t k => State.memWrite t (base + BitVec.ofNat 16 k.val) (s.reg k)) t =
      { t with memory := (ks.foldl (fun t k => State.memWrite t (base + BitVec.ofNat 16 k.val) (s.reg k)) t).memory } from this s
  induction ks with
  | nil => intro t; rfl
  | cons k ks ih => intro t; rw [List.foldl_cons, ih]; rfl

/-- A block store leaves every address that is none of its own. -/
theorem State.read_storeList_other (s : State) (base : Word) (ks : List Reg) (a : Nat)
    (h : ∀ k ∈ ks, a ≠ maskAddr (base + BitVec.ofNat 16 k.val)) : (s.storeList base ks).memory.read a = s.memory.read a := by
  suffices ∀ t : State, (ks.foldl (fun t k => State.memWrite t (base + BitVec.ofNat 16 k.val) (s.reg k)) t).memory.read a =
      t.memory.read a from this s
  induction ks with
  | nil => intro t; rfl
  | cons k ks ih =>
    intro t
    rw [List.foldl_cons, ih (fun j hj => h j (by simp [hj]))]
    exact Memory.read_write_other _ _ (h k (by simp))

/-- A block store puts each register k of the list at `base + k`. -/
theorem State.read_storeList_same (s : State) (base : Word) (ks : List Reg) {j : Reg} (hj : j ∈ ks) :
    (s.storeList base ks).memory.read (maskAddr (base + BitVec.ofNat 16 j.val)) = s.reg j := by
  suffices ∀ t : State, (j ∈ ks ∨ t.memory.read (maskAddr (base + BitVec.ofNat 16 j.val)) = s.reg j) →
      (ks.foldl (fun t k => State.memWrite t (base + BitVec.ofNat 16 k.val) (s.reg k)) t).memory.read
        (maskAddr (base + BitVec.ofNat 16 j.val)) = s.reg j from this s (.inl hj)
  clear hj
  induction ks with
  | nil => intro t h; simpa using h
  | cons k ks ih =>
    intro t h
    rw [List.foldl_cons]
    apply ih
    by_cases hk : j = k
    · subst hk; exact .inr (Memory.read_write_same _ _ _)
    · rcases h with h | h
      · exact .inl (by simpa [hk] using h)
      · refine .inr ((Memory.read_write_other _ _ ?_).trans h)
        exact fun e => hk (Fin.ext (maskAddr_add_inj base j.isLt k.isLt e))

theorem State.storeList_font (s : State) (base : Word) (ks : List Reg) : (s.storeList base ks).memory.font = s.memory.font := by
  suffices ∀ t : State, (ks.foldl (fun t k => State.memWrite t (base + BitVec.ofNat 16 k.val) (s.reg k)) t).memory.font =
      t.memory.font from this s
  induction ks with
  | nil => exact fun _ => rfl
  | cons k ks ih => exact fun t => ih _

/-- A block store keeps memory's canonical form. -/
theorem State.storeList_wf {s : State} (h : s.memory.wf = true) (base : Word) (ks : List Reg) :
    (s.storeList base ks).memory.wf = true := by
  suffices ∀ t : State, t.memory.wf = true →
      (ks.foldl (fun t k => State.memWrite t (base + BitVec.ofNat 16 k.val) (s.reg k)) t).memory.wf = true from this s h
  induction ks with
  | nil => intro t ht; exact ht
  | cons k ks ih => intro t ht; exact ih _ (State.memWrite_wf ht _ _)

/-! ## Keys -/

/-- No key is down. -/
theorem State.lowestKey_eq_none_iff (s : State) : s.lowestKey = none ↔ ∀ k, s.keyDown k = false := by
  simp [State.lowestKey, List.find?_eq_none]

/-- `k` is the lowest key that is down. -/
theorem State.lowestKey_eq_some_iff (s : State) (k : Key) :
    s.lowestKey = some k ↔ s.keyDown k = true ∧ ∀ j < k, s.keyDown j = false := by
  have hp : (List.finRange 16).Pairwise (· < ·) := List.pairwise_lt_finRange 16
  constructor
  · intro h
    refine ⟨by simpa using List.find?_some h, fun j hj => ?_⟩
    rw [State.lowestKey, List.find?_eq_some_iff_append] at h
    obtain ⟨-, as, bs, he, ha⟩ := h
    have hm : j ∈ as ++ k :: bs := he ▸ List.mem_finRange j
    rw [he] at hp
    rcases List.mem_append.1 hm with hm | hm
    · simpa using ha j hm
    · rcases List.mem_cons.1 hm with rfl | hm
      · exact absurd hj (lt_irrefl _)
      · exact absurd hj (not_lt.2 ((List.pairwise_cons.1 (List.pairwise_append.1 hp).2.1).1 j hm).le)
  · rintro ⟨hk, hlt⟩
    rw [State.lowestKey, List.find?_eq_some_iff_append]
    obtain ⟨as, bs, he⟩ := List.append_of_mem (List.mem_finRange k)
    refine ⟨hk, as, bs, he, fun j hj => ?_⟩
    rw [he] at hp
    simp [hlt j ((List.pairwise_append.1 hp).2.2 j hj k (by simp))]

theorem keyWriteEvent_keyDown (s : State) (k j : Key) (b : Bool) :
    (keyWriteEvent k b s).keyDown j = if j = k then b else s.keyDown j := by
  simp only [State.keyDown, keyWriteEvent, Fin.getElem_fin, Vector.getElem_set, Fin.ext_iff]
  by_cases h : k.val = j.val
  · simp [h]
  · simp [h, Ne.symm h]

/-! ## Timers -/

theorem countDown_toNat (t : Byte) : (countDown t).toNat = t.toNat - 1 := by
  unfold countDown
  split
  · rename_i h; subst h; rfl
  · rename_i h
    have h0 : t.toNat ≠ 0 := fun e => h (BitVec.eq_of_toNat_eq e)
    have hl := t.isLt
    have h1 : (1 : Byte).toNat = 1 := rfl
    rw [BitVec.toNat_sub, h1]
    omega

/-! ## Load -/

/-- A successful `Load` changes memory only. -/
theorem loadEvent_fits {bytes : List Byte} (h : loadFits bytes.length = true) (s : State) :
    loadEvent bytes s = ({ s with memory := s.memory.writeBytes progBase bytes }, true) := by
  simp [loadEvent, h]

/-- A failed `Load` changes nothing. -/
theorem loadEvent_fails {bytes : List Byte} (h : loadFits bytes.length = false) (s : State) : loadEvent bytes s = (s, false) := by
  simp [loadEvent, h]

theorem loadFits_iff (n : Nat) : loadFits n = true ↔ 0 < n ∧ n ≤ 3584 := by
  rw [loadFits, Bool.and_eq_true, decide_eq_true_iff, decide_eq_true_iff]
  rfl

end Sys2Proof.Machine
end

