-- ==== Sys2Proof/Laws/Display.lean ====
section
/-! SUPPORT. The display: what drawing does to each cell and to the collision flag, said once over any set of toggles. -/

namespace Sys2Proof.Machine

theorem pixel_blankDisplay (x : Fin 64) (y : Fin 32) : pixel blankDisplay x y = false := by
  simp [pixel, blankDisplay]

theorem pixel_togglePixel (d : Display) (x x' : Fin 64) (y y' : Fin 32) :
    pixel (togglePixel d x y) x' y' = (pixel d x' y' ^^ decide (x' = x ∧ y' = y)) := by
  simp only [pixel, togglePixel, Fin.getElem_fin, Vector.getElem_set, Fin.ext_iff]
  by_cases hy : y.val = y'.val
  · by_cases hx : x.val = x'.val
    · simp [hx, hy]
    · simp [hx, hy, Ne.symm hx]
  · simp [hy, Ne.symm hy]

/-- Two displays with the same cells are the same. -/
theorem display_ext {d e : Display} (h : ∀ x y, pixel d x y = pixel e x y) : d = e := by
  ext y hy x hx
  rw [show d[y][x] = e[y][x] from h ⟨x, hx⟩ ⟨y, hy⟩]

/-- A drawing state that toggles the cells where `hit` holds, once each, from the display `d`. -/
structure Drawing.Shows (g : Drawing) (d : Display) (hit : Fin 64 → Fin 32 → Bool) : Prop where
  pixels : ∀ x y, pixel g.display x y = (pixel d x y ^^ hit x y)
  collides : g.collision = true ↔ ∃ x y, hit x y = true ∧ pixel d x y = true

theorem Drawing.Shows.congr {g : Drawing} {d : Display} {hit hit' : Fin 64 → Fin 32 → Bool} (h : g.Shows d hit)
    (he : ∀ x y, hit x y = hit' x y) : g.Shows d hit' := by
  have : hit = hit' := funext fun x => funext fun y => he x y
  exact this ▸ h

theorem Drawing.shows_start (d : Display) : Drawing.Shows ⟨d, false⟩ d (fun _ _ => false) :=
  ⟨by simp, by simp⟩

/-- Plotting a bit adds its cell to the cells toggled, if it lies on the grid and was not toggled before. -/
theorem Drawing.Shows.plot {g : Drawing} {d : Display} {hit : Fin 64 → Fin 32 → Bool} (h : g.Shows d hit) (px py : Nat)
    (hnew : ∀ x y, x.val = px → y.val = py → hit x y = false) :
    (g.plot px py).Shows d (fun x y => hit x y || decide (x.val = px ∧ y.val = py)) := by
  unfold Drawing.plot
  split
  · rename_i hin
    have hn := hnew ⟨px, hin.1⟩ ⟨py, hin.2⟩ rfl rfl
    constructor
    · intro x y
      rw [pixel_togglePixel, h.pixels]
      by_cases hc : x.val = px ∧ y.val = py
      · have : x = ⟨px, hin.1⟩ ∧ y = ⟨py, hin.2⟩ := ⟨Fin.ext hc.1, Fin.ext hc.2⟩
        simp [this.1, this.2, hn]
      · have : ¬ (x = ⟨px, hin.1⟩ ∧ y = ⟨py, hin.2⟩) := fun e => hc ⟨congrArg Fin.val e.1, congrArg Fin.val e.2⟩
        simp [hc, this]
    · rw [Bool.or_eq_true, h.collides, h.pixels, hn]
      constructor
      · rintro (⟨x, y, h1, h2⟩ | h2)
        · exact ⟨x, y, by simp [h1], h2⟩
        · exact ⟨⟨px, hin.1⟩, ⟨py, hin.2⟩, by simp, by simpa using h2⟩
      · rintro ⟨x, y, h1, h2⟩
        rcases Bool.or_eq_true_iff.1 h1 with h1 | h1
        · exact .inl ⟨x, y, h1, h2⟩
        · obtain ⟨hx, hy⟩ := of_decide_eq_true h1
          obtain rfl : x = ⟨px, hin.1⟩ := Fin.ext hx
          obtain rfl : y = ⟨py, hin.2⟩ := Fin.ext hy
          exact .inr (by simpa using h2)
  · rename_i hout
    refine h.congr fun x y => ?_
    have : ¬ (x.val = px ∧ y.val = py) := fun e => hout ⟨e.1 ▸ x.isLt, e.2 ▸ y.isLt⟩
    simp [this]

/-- The cells of the first `n` columns of a sprite row. -/
def rowHit (row : Byte) (x0 py n : Nat) (x : Fin 64) (y : Fin 32) : Bool :=
  decide (y.val = py) && (decide (x0 ≤ x.val) && (decide (x.val - x0 < n) && spriteBit row (x.val - x0)))

theorem Drawing.Shows.columns {g : Drawing} {d : Display} {hit : Fin 64 → Fin 32 → Bool} (h : g.Shows d hit) (row : Byte)
    (x0 py n : Nat) (hnew : ∀ x y, y.val = py → hit x y = false) :
    ((List.range n).foldl (fun g c => if spriteBit row c then Drawing.plot g (x0 + c) py else g) g).Shows d
      (fun x y => hit x y || rowHit row x0 py n x y) := by
  induction n with
  | zero => simpa [rowHit] using h
  | succ n ih =>
    rw [List.range_succ, List.foldl_append, List.foldl_cons, List.foldl_nil]
    split
    · rename_i hb
      refine (ih.plot (x0 + n) py ?_).congr fun x y => ?_
      · intro x y hx hy
        have : ¬ x.val - x0 < n := by omega
        simp [hnew x y hy, rowHit, this]
      · by_cases hx : x.val = x0 + n
        · simp [rowHit, hx, hb]
        · by_cases hge : x0 ≤ x.val
          · have : x.val - x0 < n + 1 ↔ x.val - x0 < n := by omega
            simp [rowHit, hx, this]
          · simp [rowHit, hx, hge]
    · rename_i hb
      refine ih.congr fun x y => ?_
      by_cases hx : x.val - x0 = n
      · have : ¬ x.val - x0 < n := by omega
        simp [rowHit, hx, Bool.eq_false_iff.2 hb]
      · have : x.val - x0 < n + 1 ↔ x.val - x0 < n := by omega
        simp [rowHit, this]

/-- The cells a sprite of `n` rows covers with a set bit: row `py - y0` of the sprite, column `px - x0` (spec/44_display.md R117). -/
def spriteHit (rows : Nat → Byte) (x0 y0 n : Nat) (x : Fin 64) (y : Fin 32) : Bool :=
  decide (y0 ≤ y.val) && (decide (y.val - y0 < n) && rowHit (rows (y.val - y0)) x0 y.val 8 x y)

/-- What drawing a sprite does: it toggles the covered cells on the grid, and collides exactly if one of them was on. -/
theorem State.drawSprite_shows (s : State) (x0 y0 n : Nat) :
    (s.drawSprite x0 y0 n).Shows s.display (spriteHit s.spriteRow x0 y0 n) := by
  unfold State.drawSprite
  induction n with
  | zero => exact (Drawing.shows_start s.display).congr fun x y => by simp [spriteHit]
  | succ n ih =>
    rw [List.range_succ, List.foldl_append, List.foldl_cons, List.foldl_nil]
    unfold Drawing.drawRow
    refine (ih.columns (s.spriteRow n) x0 (y0 + n) 8 ?_).congr fun x y => ?_
    · intro x y hy
      have : ¬ y.val - y0 < n := by omega
      simp [spriteHit, this]
    · by_cases hy : y.val = y0 + n
      · simp [spriteHit, hy, rowHit]
      · by_cases hge : y0 ≤ y.val
        · have : y.val - y0 < n + 1 ↔ y.val - y0 < n := by omega
          simp [spriteHit, rowHit, hy, this]
        · simp [spriteHit, rowHit, hy, hge]

end Sys2Proof.Machine
end

