-- ==== Sys2Proof/Laws/Exec.lean ====
section
/-! SUPPORT. What the meanings with more than one way to end can do, said once; and what a step does in terms of `exec`. -/

namespace Sys2Proof.Machine

/-- A step of a core that is not halted runs the fetched instruction after the advance. -/
theorem step_running {s : State} (h : s.fault = .noFault) : step s = exec (decode s.fetch) s.advance := by
  simp [step, (State.halted_eq_false_iff s).2 h]

/-- The two ways a return can end. -/
theorem execRet_cases {s t : State} (h : execRet s = .next t) :
    (s.sp.val = 0 ∧ t = s.raiseFault .stackUnderflow) ∨
    ∃ hlt : 0 < s.sp.val, t = { s with sp := ⟨s.sp.val - 1, by omega⟩, pc := s.stack[s.sp.val - 1]'(by omega) } := by
  unfold execRet at h
  split at h
  · rename_i hp
    exact .inl ⟨(State.pop_eq_none_iff s).1 hp, (Host.Outcome.next.inj h).symm⟩
  · rename_i hp
    obtain ⟨hlt, rfl, rfl⟩ := State.pop_eq_some hp
    exact .inr ⟨hlt, (Host.Outcome.next.inj h).symm⟩

/-- The two ways a call can end. -/
theorem execCall_cases {s t : State} {nnn : Addr} (h : execCall nnn s = .next t) :
    (s.sp.val = 16 ∧ t = s.raiseFault .stackOverflow) ∨
    ∃ hlt : s.sp.val < 16, t = { s with stack := s.stack.set s.sp.val s.pc hlt, sp := ⟨s.sp.val + 1, by omega⟩, pc := zextAddr nnn } := by
  unfold execCall at h
  split at h
  · rename_i hp
    exact .inl ⟨(State.push_eq_none_iff s _).1 hp, (Host.Outcome.next.inj h).symm⟩
  · rename_i hp
    obtain ⟨hlt, rfl⟩ := State.push_eq_some hp
    exact .inr ⟨hlt, (Host.Outcome.next.inj h).symm⟩

/-- The two ways a sprite draw can end: the stall, or a drawing that shows the covered cells toggled. -/
theorem execDrw_cases {s t : State} {x y : Reg} {n : Fin 16} (h : execDrw x y n s = .next t) :
    (s.isRedrawNeeded = true ∧ t = s.stall) ∨
    (s.isRedrawNeeded = false ∧ ∃ g : Drawing,
      g.Shows s.display (spriteHit s.spriteRow (startColumn (s.reg x)) (startRow (s.reg y)) n.val) ∧
      t = (s.showDisplay g.display).setReg vf (flagByte g.collision)) := by
  unfold execDrw at h
  split at h
  · exact .inl ⟨‹_›, (Host.Outcome.next.inj h).symm⟩
  · exact .inr ⟨Bool.eq_false_iff.2 ‹_›, _, State.drawSprite_shows s _ _ _, (Host.Outcome.next.inj h).symm⟩

/-- The two ways a key wait can end. -/
theorem execLdKey_cases {s t : State} {x : Reg} (h : execLdKey x s = .next t) :
    ((∀ k, s.keyDown k = false) ∧ t = s.stall) ∨
    ∃ k : Key, s.keyDown k = true ∧ (∀ j < k, s.keyDown j = false) ∧ t = s.setReg x (BitVec.ofNat 8 k.val) := by
  unfold execLdKey at h
  split at h
  · rename_i hk
    exact .inl ⟨(State.lowestKey_eq_none_iff s).1 hk, (Host.Outcome.next.inj h).symm⟩
  · rename_i k hk
    obtain ⟨h1, h2⟩ := (State.lowestKey_eq_some_iff s k).1 hk
    exact .inr ⟨k, h1, h2, (Host.Outcome.next.inj h).symm⟩

/-- What a draw of `CXNN` is. -/
theorem execRnd_eq (x : Reg) (nn : Byte) (s : State) :
    execRnd x nn s = .next (s.draw8.2.setReg x (Config.rnd s.draws &&& nn)) := rfl

/-- One event more at the front of a run. -/
theorem runEvents_cons {e : Event} {es : List Event} {s t : State} (h : runEvents (e :: es) s = .next t) :
    ∃ u, applyEvent e s = .next u ∧ runEvents es u = .next t := by
  unfold runEvents at h
  split at h
  · exact ⟨_, ‹_›, h⟩
  · cases h
  · cases h

end Sys2Proof.Machine
end

