-- ==== Sys2Proof/Laws/PerInstr.lean ====
section
/-! SUPPORT. Per-instruction laws about the instruction as syntax. Family RowSelects: the word the encoder gives an instruction is
selected by the row of the opcode map that has the instruction's mnemonic (spec/30_encoding.md R62). -/

namespace Sys2Proof.Laws.RowSelects

/-- Every row with the instruction's mnemonic selects its word; for the no-op, whose mnemonic no row has, no row selects it. -/
def Statement (i : Instr) : Prop :=
  i.WellFormed → (∀ r ∈ opcodeMap, r.mnemonic = i.mnemonic → r.selects (encode i) = true) ∧
    (i.mnemonic = "NOP" → recognised (encode i) = false)

theorem no_row_is_nop : ∀ r ∈ opcodeMap, r.mnemonic ≠ "NOP" := by decide

/-- The statement for an instruction of the map: its own row selects its word. -/
theorem of_row {i : Instr} {r : OpRow} (hr : opcodeMap.filter (fun q => q.mnemonic = i.mnemonic) = [r])
    (h : r.selects (encode i) = true) : Statement i := by
  refine fun _ => ⟨fun q hq hm => ?_, fun e => ?_⟩
  · have : q ∈ [r] := hr ▸ List.mem_filter.2 ⟨hq, by simpa using hm⟩
    exact (List.mem_singleton.1 this) ▸ h
  · have hm : r ∈ opcodeMap.filter (fun q => q.mnemonic = i.mnemonic) := hr ▸ List.mem_singleton.2 rfl
    obtain ⟨h1, h2⟩ := List.mem_filter.1 hm
    exact absurd ((of_decide_eq_true h2).trans e) (no_row_is_nop r h1)

/-- Rows that inspect the family nibble only. -/
theorem of_F000 {i : Instr} {m : String} {b : Word}
    (hr : opcodeMap.filter (fun q => q.mnemonic = i.mnemonic) = [⟨m, 0xF000, b⟩])
    (h : (encode i).toNat / 4096 * 4096 = b.toNat) : Statement i := of_row hr ((selects_F000 m b _).2 h)

/-- Rows that inspect the family nibble and the low byte. -/
theorem of_F0FF {i : Instr} {m : String} {b : Word}
    (hr : opcodeMap.filter (fun q => q.mnemonic = i.mnemonic) = [⟨m, 0xF0FF, b⟩])
    (h : (encode i).toNat / 4096 * 4096 + (encode i).toNat % 256 = b.toNat) : Statement i := of_row hr ((selects_F0FF m b _).2 h)

/-- Rows that inspect the family nibble and the low nibble. -/
theorem of_F00F {i : Instr} {m : String} {b : Word}
    (hr : opcodeMap.filter (fun q => q.mnemonic = i.mnemonic) = [⟨m, 0xF00F, b⟩])
    (h : (encode i).toNat / 4096 * 4096 + (encode i).toNat % 16 = b.toNat) : Statement i := of_row hr ((selects_F00F m b _).2 h)

/-! What the formats give for the three masks. -/

theorem packA_family {f : Nat} (hf : f < 16) (nnn : Addr) : (packA f nnn).toNat / 4096 * 4096 = f * 4096 := by
  have := nnn.isLt
  rw [packA_toNat hf]; omega

theorem packXI_family {f : Nat} (hf : f < 16) (x : Reg) (nn : Byte) : (packXI f x nn).toNat / 4096 * 4096 = f * 4096 := by
  have := nn.isLt
  have := x.isLt
  rw [packXI_toNat hf]; omega

theorem packXI_family_low {f : Nat} (hf : f < 16) (x : Reg) (nn : Byte) :
    (packXI f x nn).toNat / 4096 * 4096 + (packXI f x nn).toNat % 256 = f * 4096 + nn.toNat := by
  have := nn.isLt
  have := x.isLt
  rw [packXI_toNat hf]; omega

theorem packNibbles_family {f : Nat} (hf : f < 16) (x y n : Fin 16) :
    (packNibbles f x y n).toNat / 4096 * 4096 = f * 4096 := by
  have := x.isLt
  have := y.isLt
  have := n.isLt
  rw [packNibbles_toNat hf x.isLt y.isLt n.isLt]; omega

theorem packNibbles_family_low {f : Nat} (hf : f < 16) (x y n : Fin 16) :
    (packNibbles f x y n).toNat / 4096 * 4096 + (packNibbles f x y n).toNat % 16 = f * 4096 + n.val := by
  have := x.isLt
  have := y.isLt
  have := n.isLt
  rw [packNibbles_toNat hf x.isLt y.isLt n.isLt]; omega

/-! One lemma per constructor. -/

theorem cls : Statement (.cls) := of_F0FF (m := "CLS") (b := 0x00E0) (by rfl) (by rfl)

theorem ret : Statement (.ret) := of_F0FF (m := "RET") (b := 0x00EE) (by rfl) (by rfl)

theorem jp (nnn : Addr) : Statement (.jp nnn) := of_F000 (m := "JP_NNN") (b := 0x1000) (by rfl) (packA_family (f := 0x1) (by decide) nnn)

theorem call (nnn : Addr) : Statement (.call nnn) := of_F000 (m := "CALL_NNN") (b := 0x2000) (by rfl) (packA_family (f := 0x2) (by decide) nnn)

theorem seImm (x : Reg) (nn : Byte) : Statement (.seImm x nn) := of_F000 (m := "SE_Vx__NN") (b := 0x3000) (by rfl) (packXI_family (f := 0x3) (by decide) x nn)

theorem sneImm (x : Reg) (nn : Byte) : Statement (.sneImm x nn) := of_F000 (m := "SNE_Vx__NN") (b := 0x4000) (by rfl) (packXI_family (f := 0x4) (by decide) x nn)

theorem seReg (x : Reg) (y : Reg) : Statement (.seReg x y) := of_F000 (m := "SE_Vx__Vy") (b := 0x5000) (by rfl) (packNibbles_family (f := 0x5) (by decide) x y 0)

theorem ldImm (x : Reg) (nn : Byte) : Statement (.ldImm x nn) := of_F000 (m := "LD_Vx__NN") (b := 0x6000) (by rfl) (packXI_family (f := 0x6) (by decide) x nn)

theorem addImm (x : Reg) (nn : Byte) : Statement (.addImm x nn) := of_F000 (m := "ADD_Vx__NN") (b := 0x7000) (by rfl) (packXI_family (f := 0x7) (by decide) x nn)

theorem ldReg (x : Reg) (y : Reg) : Statement (.ldReg x y) := of_F00F (m := "LD_Vx__Vy") (b := 0x8000) (by rfl) (packNibbles_family_low (f := 0x8) (by decide) x y 0x0)

theorem orReg (x : Reg) (y : Reg) : Statement (.orReg x y) := of_F00F (m := "OR_Vx__Vy") (b := 0x8001) (by rfl) (packNibbles_family_low (f := 0x8) (by decide) x y 0x1)

theorem andReg (x : Reg) (y : Reg) : Statement (.andReg x y) := of_F00F (m := "AND_Vx__Vy") (b := 0x8002) (by rfl) (packNibbles_family_low (f := 0x8) (by decide) x y 0x2)

theorem xorReg (x : Reg) (y : Reg) : Statement (.xorReg x y) := of_F00F (m := "XOR_Vx__Vy") (b := 0x8003) (by rfl) (packNibbles_family_low (f := 0x8) (by decide) x y 0x3)

theorem addReg (x : Reg) (y : Reg) : Statement (.addReg x y) := of_F00F (m := "ADD_Vx__Vy") (b := 0x8004) (by rfl) (packNibbles_family_low (f := 0x8) (by decide) x y 0x4)

theorem subReg (x : Reg) (y : Reg) : Statement (.subReg x y) := of_F00F (m := "SUB_Vx__Vy") (b := 0x8005) (by rfl) (packNibbles_family_low (f := 0x8) (by decide) x y 0x5)

theorem shrReg (x : Reg) (y : Reg) : Statement (.shrReg x y) := of_F00F (m := "SHR_Vx__Vy") (b := 0x8006) (by rfl) (packNibbles_family_low (f := 0x8) (by decide) x y 0x6)

theorem subnReg (x : Reg) (y : Reg) : Statement (.subnReg x y) := of_F00F (m := "SUBN_Vx__Vy") (b := 0x8007) (by rfl) (packNibbles_family_low (f := 0x8) (by decide) x y 0x7)

theorem shlReg (x : Reg) (y : Reg) : Statement (.shlReg x y) := of_F00F (m := "SHL_Vx__Vy") (b := 0x800E) (by rfl) (packNibbles_family_low (f := 0x8) (by decide) x y 0xE)

theorem sneReg (x : Reg) (y : Reg) : Statement (.sneReg x y) := of_F000 (m := "SNE_Vx__Vy") (b := 0x9000) (by rfl) (packNibbles_family (f := 0x9) (by decide) x y 0)

theorem ldI (nnn : Addr) : Statement (.ldI nnn) := of_F000 (m := "LD_I__NNN") (b := 0xA000) (by rfl) (packA_family (f := 0xA) (by decide) nnn)

theorem jpV0 (nnn : Addr) : Statement (.jpV0 nnn) := of_F000 (m := "JP_V0__NNN") (b := 0xB000) (by rfl) (packA_family (f := 0xB) (by decide) nnn)

theorem rnd (x : Reg) (nn : Byte) : Statement (.rnd x nn) := of_F000 (m := "RND_Vx__NN") (b := 0xC000) (by rfl) (packXI_family (f := 0xC) (by decide) x nn)

theorem drw (x : Reg) (y : Reg) (n : Fin 16) : Statement (.drw x y n) := of_F000 (m := "DRW_Vx__Vy__N") (b := 0xD000) (by rfl) (packNibbles_family (f := 0xD) (by decide) x y n)

theorem skp (x : Reg) : Statement (.skp x) := of_F0FF (m := "SKP_Vx") (b := 0xE09E) (by rfl) (packXI_family_low (f := 0xE) (by decide) x 0x9E)

theorem sknp (x : Reg) : Statement (.sknp x) := of_F0FF (m := "SKNP_Vx") (b := 0xE0A1) (by rfl) (packXI_family_low (f := 0xE) (by decide) x 0xA1)

theorem ldFromDelay (x : Reg) : Statement (.ldFromDelay x) := of_F0FF (m := "LD_Vx__DT") (b := 0xF007) (by rfl) (packXI_family_low (f := 0xF) (by decide) x 0x07)

theorem ldKey (x : Reg) : Statement (.ldKey x) := of_F0FF (m := "LD_Vx__K") (b := 0xF00A) (by rfl) (packXI_family_low (f := 0xF) (by decide) x 0x0A)

theorem ldDelay (x : Reg) : Statement (.ldDelay x) := of_F0FF (m := "LD_DT__Vx") (b := 0xF015) (by rfl) (packXI_family_low (f := 0xF) (by decide) x 0x15)

theorem ldSound (x : Reg) : Statement (.ldSound x) := of_F0FF (m := "LD_ST__Vx") (b := 0xF018) (by rfl) (packXI_family_low (f := 0xF) (by decide) x 0x18)

theorem addI (x : Reg) : Statement (.addI x) := of_F0FF (m := "ADD_I__Vx") (b := 0xF01E) (by rfl) (packXI_family_low (f := 0xF) (by decide) x 0x1E)

theorem ldFont (x : Reg) : Statement (.ldFont x) := of_F0FF (m := "LD_F__Vx") (b := 0xF029) (by rfl) (packXI_family_low (f := 0xF) (by decide) x 0x29)

theorem ldBcd (x : Reg) : Statement (.ldBcd x) := of_F0FF (m := "LD_B__Vx") (b := 0xF033) (by rfl) (packXI_family_low (f := 0xF) (by decide) x 0x33)

theorem storeRegs (x : Reg) : Statement (.storeRegs x) := of_F0FF (m := "LD__I___Vx") (b := 0xF055) (by rfl) (packXI_family_low (f := 0xF) (by decide) x 0x55)

theorem loadRegs (x : Reg) : Statement (.loadRegs x) := of_F0FF (m := "LD_Vx___I") (b := 0xF065) (by rfl) (packXI_family_low (f := 0xF) (by decide) x 0x65)

theorem nop (w : Word) : Statement (.nop w) := by
  intro h
  have hw : recognised w = false := by simpa only [Instr.WellFormed, Instr.wellFormed, Bool.not_eq_true'] using h
  exact ⟨fun r hr e => absurd e (no_row_is_nop r hr), fun _ => hw⟩

end Sys2Proof.Laws.RowSelects
end

