-- ==== Sys2Proof/Laws/Ports.lean ====
section
/-! SUPPORT. What the strobes of one clock edge can do, said once (spec/10_state.md R25, R26). -/

namespace Sys2Proof.Machine

/-- Without a load write, the strobes before the step reach the keyboard and the redraw flag only. -/
theorem edgeBeforeStep_frame {p : Inputs} (h : p.ldWe = false) (s : State) :
    edgeBeforeStep p s =
      { s with keyboard := (edgeBeforeStep p s).keyboard, isRedrawNeeded := (edgeBeforeStep p s).isRedrawNeeded } := by
  simp only [edgeBeforeStep, h]
  cases p.keyWe <;> cases p.frameAck <;> rfl

/-- What a write on the loader's port does to a read: ignored below 0x200. -/
theorem loadPortWrite_read (a : BitVec 12) (b : Byte) (s : State) (a' : Nat) :
    (loadPortWrite a b s).memory.read a' = if 0x200 ≤ a.toNat ∧ a' = a.toNat then b else s.memory.read a' := by
  unfold loadPortWrite progBase
  split
  · rename_i h
    simp only [Memory.read_write, h, true_and]
  · rename_i h
    rw [if_neg (fun e => h e.1)]

/-- The loader's port keeps the canonical form of memory. -/
theorem loadPortWrite_wf {s : State} (h : s.memory.wf = true) (a : BitVec 12) (b : Byte) : (loadPortWrite a b s).memory.wf = true := by
  unfold loadPortWrite
  split
  · exact Memory.write_wf h a.isLt b
  · exact h

/-- The timers are all that the strobe after the step reaches. -/
theorem edgeAfterStep_frame (p : Inputs) (s : State) :
    edgeAfterStep p s = { s with delayTimer := (edgeAfterStep p s).delayTimer, soundTimer := (edgeAfterStep p s).soundTimer } := by
  unfold edgeAfterStep
  cases p.tick60 <;> rfl

/-- An edge with `step` and without `rst`: the strobes before the step, the step, the strobe after it. -/
theorem clockEdge_of_step {p : Inputs} {s t : State} (hr : p.rst = false) (hs : p.step = true)
    (h : step (edgeBeforeStep p s) = .next t) : clockEdge p s = .next (edgeAfterStep p t) := by
  simp [clockEdge, hr, hs, h]

end Sys2Proof.Machine
end

