-- ==== Sys2Proof/Tests/Slice0.lean ====
section
/-! SUPPORT. Tests. Every expected value is taken from spec/: a row of spec/95_test_vectors.md or an example in the instruction's rule,
named in each test's docstring. Then, for each statement of Certificates/Slice0/Obligations.lean with hypotheses, a concrete
state and operands that meet them together. -/

namespace Sys2Proof.Tests

open Sys2Proof.Machine

/-- The reset state with a word at `pc` = 0x0200, as the vectors' conventions have it. -/
def core (w : Word) : State := State.reset.placeWord w

/-- What a view shows of the state after one step. -/
def after {α : Type} (s : State) (f : State → α) : Option α :=
  match step s with
  | .next t => some (f t)
  | _ => none

/-- What a view shows of the state after a run of events. -/
def afterRun {α : Type} (es : List Event) (s : State) (f : State → α) : Option α :=
  match runEvents es s with
  | .next t => some (f t)
  | _ => none

/-! ## Well-formedness: the one check, and a term it refuses -/

theorem test_wf_nop_refused : ¬ (Instr.nop 0x6A2F).WellFormed := by decide
theorem test_wf_nop_accepted : (Instr.nop 0x0000).WellFormed := by decide
theorem test_wf_others_accepted : (Instr.drw 15 15 15).WellFormed ∧ (Instr.jp 0xFFF).WellFormed := by decide

/-! ## Decoding: for every constructor, a word written out from the bit patterns of spec/30_encoding.md R62 -/

theorem test_decode_cls : decode 0b0000_0000_1110_0000 = .cls := by decide
theorem test_decode_ret : decode 0b0000_0000_1110_1110 = .ret := by decide
theorem test_decode_jp : decode 0b0001_1010_1011_1100 = .jp 0xABC := by decide
theorem test_decode_call : decode 0b0010_0011_0000_0000 = .call 0x300 := by decide
theorem test_decode_seImm : decode 0b0011_0011_0010_1010 = .seImm 3 0x2A := by decide
theorem test_decode_sneImm : decode 0b0100_0011_0010_1010 = .sneImm 3 0x2A := by decide
theorem test_decode_seReg : decode 0b0101_0001_0010_0000 = .seReg 1 2 := by decide
theorem test_decode_ldImm : decode 0b0110_1010_0010_1111 = .ldImm 10 0x2F := by decide
theorem test_decode_addImm : decode 0b0111_0010_0000_0010 = .addImm 2 0x02 := by decide
theorem test_decode_ldReg : decode 0b1000_0011_0100_0000 = .ldReg 3 4 := by decide
theorem test_decode_orReg : decode 0b1000_0001_0010_0001 = .orReg 1 2 := by decide
theorem test_decode_andReg : decode 0b1000_0001_0010_0010 = .andReg 1 2 := by decide
theorem test_decode_xorReg : decode 0b1000_0001_0010_0011 = .xorReg 1 2 := by decide
theorem test_decode_addReg : decode 0b1000_0000_0001_0100 = .addReg 0 1 := by decide
theorem test_decode_subReg : decode 0b1000_0000_0001_0101 = .subReg 0 1 := by decide
theorem test_decode_shrReg : decode 0b1000_0001_0010_0110 = .shrReg 1 2 := by decide
theorem test_decode_subnReg : decode 0b1000_0000_0001_0111 = .subnReg 0 1 := by decide
theorem test_decode_shlReg : decode 0b1000_0001_0010_1110 = .shlReg 1 2 := by decide
theorem test_decode_sneReg : decode 0b1001_0001_0010_0000 = .sneReg 1 2 := by decide
theorem test_decode_ldI : decode 0b1010_0011_0000_0000 = .ldI 0x300 := by decide
theorem test_decode_jpV0 : decode 0b1011_0011_0000_0000 = .jpV0 0x300 := by decide
theorem test_decode_rnd : decode 0b1100_0011_0000_1111 = .rnd 3 0x0F := by decide
theorem test_decode_drw : decode 0b1101_0001_0010_0011 = .drw 1 2 3 := by decide
theorem test_decode_skp : decode 0b1110_0010_1001_1110 = .skp 2 := by decide
theorem test_decode_sknp : decode 0b1110_0010_1010_0001 = .sknp 2 := by decide
theorem test_decode_ldFromDelay : decode 0b1111_0011_0000_0111 = .ldFromDelay 3 := by decide
theorem test_decode_ldKey : decode 0b1111_0001_0000_1010 = .ldKey 1 := by decide
theorem test_decode_ldDelay : decode 0b1111_0011_0001_0101 = .ldDelay 3 := by decide
theorem test_decode_ldSound : decode 0b1111_0001_0001_1000 = .ldSound 1 := by decide
theorem test_decode_addI : decode 0b1111_0001_0001_1110 = .addI 1 := by decide
theorem test_decode_ldFont : decode 0b1111_0001_0010_1001 = .ldFont 1 := by decide
theorem test_decode_ldBcd : decode 0b1111_0001_0011_0011 = .ldBcd 1 := by decide
theorem test_decode_storeRegs : decode 0b1111_0010_0101_0101 = .storeRegs 2 := by decide
theorem test_decode_loadRegs : decode 0b1111_0010_0110_0101 = .loadRegs 2 := by decide
theorem test_decode_nop : decode 0b1000_1010_1011_1000 = .nop 0x8AB8 := by decide

/-- The words of spec/95_test_vectors.md section 2.1 that select the no-op. -/
theorem test_decode_noops : [0x0000, 0x00E1, 0x00F0, 0x0123, 0x8AB9, 0x8ABA, 0x8ABB, 0x8ABC, 0x8ABD, 0x8ABF, 0xE19F, 0xE1FE, 0xF100,
    0xF175, 0xF185, 0xF1FF, 0xF130, 0xF11F].all (fun w => decode w == .nop w) = true := by decide

/-- The bits a row does not inspect (spec/95_test_vectors.md section 2.1). -/
theorem test_decode_ignored_bits : decode 0x01E0 = .cls ∧ decode 0x0FEE = .ret ∧ decode 0x5127 = .seReg 1 2 ∧
    decode 0x9125 = .sneReg 1 2 := by decide

theorem test_decodeTableWord : decodeTableWord 16 0x6A2F = some (.ldImm 10 0x2F) := by decide

/-! ## One step of each instruction -/

/-- G1. -/
theorem test_cls :
    after ({ core 0x00E0 with display := togglePixel blankDisplay 1 1, isRedrawNeeded := true })
      (fun t => (decide (t.display = blankDisplay), t.isRedrawNeeded, t.pc)) = some (true, true, 0x0202) := by decide
/-- G2. -/
theorem test_cls_marks : after (core 0x00E0) (fun t => t.isRedrawNeeded) = some true := by decide
/-- B9. -/
theorem test_ret :
    after ({ core 0x00EE with sp := 2, stack := (State.reset.stack.set 0 0x0206).set 1 0x0320 })
      (fun t => (t.sp, t.pc)) = some (1, 0x0320) := by decide
/-- B10. -/
theorem test_ret_underflow : after (core 0x00EE) (fun t => (t.fault, t.pc, t.sp)) = some (.stackUnderflow, 0x0200, 0) := by decide
/-- B1. -/
theorem test_jp : after (core 0x1ABC) (fun t => t.pc) = some 0x0ABC := by decide
/-- B2. -/
theorem test_jp_self : after (core 0x1200) (fun t => decide (t = core 0x1200)) = some true := by decide
/-- B5, at 0x0200. -/
theorem test_call :
    after ({ core 0x2300 with sp := 15 })
      (fun t => (t.stack[15], t.sp, t.pc)) = some (0x0202, 16, 0x0300) := by decide
/-- B6, at 0x0200. -/
theorem test_call_overflow :
    after ({ core 0x2300 with sp := 16 })
      (fun t => (t.fault, t.pc, t.sp)) = some (.stackOverflow, 0x0200, 16) := by decide
/-- B11. -/
theorem test_seImm : after ((core 0x332A).setReg 3 0x2A) (fun t => t.pc) = some 0x0204 := by decide
/-- B12. -/
theorem test_seImm_not : after ((core 0x332A).setReg 3 0x2B) (fun t => t.pc) = some 0x0202 := by decide
/-- B14. -/
theorem test_sneImm : after ((core 0x432B).setReg 3 0x2A) (fun t => t.pc) = some 0x0204 := by decide
/-- B13. -/
theorem test_sneImm_not : after ((core 0x432A).setReg 3 0x2A) (fun t => t.pc) = some 0x0202 := by decide
/-- B15. -/
theorem test_seReg : after (((core 0x5120).setReg 1 7).setReg 2 7) (fun t => t.pc) = some 0x0204 := by decide
/-- B16. -/
theorem test_seReg_not : after (((core 0x5120).setReg 1 7).setReg 2 8) (fun t => t.pc) = some 0x0202 := by decide
/-- S1. -/
theorem test_ldImm : after ((core 0x6A2F).setReg 10 0x99) (fun t => (t.reg 10, t.pc)) = some (0x2F, 0x0202) := by decide
/-- section 2.3, 6F55. -/
theorem test_ldImm_vf : after (core 0x6F55) (fun t => t.reg vf) = some 0x55 := by decide
/-- S2. -/
theorem test_addImm :
    after (((core 0x7202).setReg 2 0xFF).setReg vf 1)
      (fun t => (t.reg 2, t.reg vf)) = some (0x01, 0x01) := by decide
/-- section 2.3, 7F02. -/
theorem test_addImm_vf : after ((core 0x7F02).setReg vf 0xFF) (fun t => t.reg vf) = some 0x01 := by decide
/-- section 2.3, 8120. -/
theorem test_ldReg :
    after (((core 0x8120).setReg 2 0x99).setReg vf 1)
      (fun t => (t.reg 1, t.reg vf)) = some (0x99, 0x01) := by decide
/-- section 2.3, 81F1. -/
theorem test_orReg :
    after (((core 0x81F1).setReg 1 0xF0).setReg vf 1)
      (fun t => (t.reg 1, t.reg vf)) = some (0xF1, 0x00) := by decide
/-- section 2.3, 8F11. -/
theorem test_orReg_vf :
    after (((core 0x8F11).setReg vf 0x55).setReg 1 0xAA)
      (fun t => (t.reg vf, t.reg 1)) = some (0x00, 0xAA) := by decide
/-- section 2.3, 8122. -/
theorem test_andReg :
    after ((((core 0x8122).setReg 1 0xF3).setReg 2 0x3F).setReg vf 1)
      (fun t => (t.reg 1, t.reg vf)) = some (0x33, 0x00) := by decide
/-- section 2.3, 8123. -/
theorem test_xorReg :
    after ((((core 0x8123).setReg 1 0xFF).setReg 2 0x0F).setReg vf 1)
      (fun t => (t.reg 1, t.reg vf)) = some (0xF0, 0x00) := by decide
/-- section 2.3, 8014, a sum of exactly 255. -/
theorem test_addReg :
    after ((((core 0x8014).setReg 0 0x80).setReg 1 0x7F).setReg vf 1)
      (fun t => (t.reg 0, t.reg vf)) = some (0xFF, 0x00) := by decide
/-- section 2.3, 8F14. -/
theorem test_addReg_vf : after (((core 0x8F14).setReg vf 0xFF).setReg 1 1) (fun t => t.reg vf) = some 0x01 := by decide
/-- S5. -/
theorem test_subReg :
    after ((((core 0x8015).setReg 0 1).setReg 1 2).setReg vf 1)
      (fun t => (t.reg 0, t.reg vf)) = some (0xFF, 0x00) := by decide
/-- section 2.3, 8015 on equal operands. -/
theorem test_subReg_equal :
    after (((core 0x8015).setReg 0 7).setReg 1 7)
      (fun t => (t.reg 0, t.reg vf)) = some (0x00, 0x01) := by decide
/-- section 2.3, 8126. -/
theorem test_shrReg :
    after (((core 0x8126).setReg 1 0xEE).setReg 2 5)
      (fun t => (t.reg 1, t.reg 2, t.reg vf)) = some (0x02, 0x05, 0x01) := by decide
/-- section 2.3, 81F6. -/
theorem test_shrReg_vf : after ((core 0x81F6).setReg vf 3) (fun t => (t.reg 1, t.reg vf)) = some (0x01, 0x01) := by decide
/-- section 2.3, 8127. -/
theorem test_subnReg :
    after (((core 0x8127).setReg 1 0x20).setReg 2 0x10)
      (fun t => (t.reg 1, t.reg 2, t.reg vf)) = some (0xF0, 0x10, 0x00) := by decide
/-- section 2.3, 8017. -/
theorem test_subnReg_no_borrow :
    after (((core 0x8017).setReg 0 0x10).setReg 1 0x20)
      (fun t => (t.reg 0, t.reg vf)) = some (0x10, 0x01) := by decide
/-- section 2.3, 812E. -/
theorem test_shlReg :
    after (((core 0x812E).setReg 1 0xEE).setReg 2 0x81)
      (fun t => (t.reg 1, t.reg 2, t.reg vf)) = some (0x02, 0x81, 0x01) := by decide
/-- section 2.3, 8FFE. -/
theorem test_shlReg_vf : after ((core 0x8FFE).setReg vf 1) (fun t => t.reg vf) = some 0x00 := by decide
/-- B18. -/
theorem test_sneReg : after (((core 0x9120).setReg 1 7).setReg 2 8) (fun t => t.pc) = some 0x0204 := by decide
/-- B19. -/
theorem test_sneReg_same : after ((core 0x9110).setReg 1 9) (fun t => t.pc) = some 0x0202 := by decide
/-- M1. -/
theorem test_ldI : after ({ core 0xAFFF with i := 0x1234 }) (fun t => t.i) = some 0x0FFF := by decide
/-- B22. -/
theorem test_jpV0 : after ((core 0xBFFF).setReg 0 0xFF) (fun t => t.pc) = some 0x10FE := by decide
/-- B23. -/
theorem test_jpV0_register : after (((core 0xB201).setReg 0 2).setReg 2 0x55) (fun t => t.pc) = some 0x0203 := by decide
/-- R126: one draw is consumed. -/
theorem test_rnd_consumes_one : after (core 0xC100) (fun t => (t.pc, t.draws)) = some (0x0202, 1) := by decide
/-- K19. -/
theorem test_rnd_masks : after (core 0xC30F) (fun t => t.reg 3) = some (Config.rnd 0 &&& 0x0F) := rfl
/-- G3. -/
theorem test_drw :
    after ({ (core 0xD011).memWrite 0x300 0xC0 with i := 0x300, display := togglePixel blankDisplay 0 0 })
      (fun t => (pixel t.display 0 0, pixel t.display 1 0, t.reg vf, t.isRedrawNeeded)) = some (false, true, 1, true) := by decide
/-- G8. -/
theorem test_drw_clips :
    after ({ (((core 0xD011).memWrite 0x300 0xFF).setReg 0 60).setReg 1 31 with i := 0x300 })
      (fun t => (pixel t.display 60 31, pixel t.display 63 31, pixel t.display 0 31, t.reg vf)) = some (true, true, false, 0) := by decide
/-- K5. -/
theorem test_skp :
    after ({ (core 0xE19E).setReg 1 0x15 with keyboard := State.reset.keyboard.set 5 true })
      (fun t => t.pc) = some 0x0204 := by decide
/-- K2. -/
theorem test_skp_not : after ((core 0xE29E).setReg 2 5) (fun t => t.pc) = some 0x0202 := by decide
/-- K6. -/
theorem test_sknp : after ((core 0xE1A1).setReg 1 0xF5) (fun t => t.pc) = some 0x0204 := by decide
/-- K4. -/
theorem test_sknp_not :
    after ({ (core 0xE2A1).setReg 2 5 with keyboard := State.reset.keyboard.set 5 true })
      (fun t => t.pc) = some 0x0202 := by decide
/-- K11. -/
theorem test_ldFromDelay :
    after ({ core 0xF307 with delayTimer := 0x2A })
      (fun t => (t.reg 3, t.delayTimer)) = some (0x2A, 0x2A) := by decide
/-- K8. -/
theorem test_ldKey :
    after ({ core 0xFF0A with keyboard := (State.reset.keyboard.set 9 true).set 12 true })
      (fun t => (t.reg vf, t.pc)) = some (0x09, 0x0202) := by decide
/-- K9. -/
theorem test_ldKey_waits : after ((core 0xF10A).setReg 1 0x33) (fun t => (t.reg 1, t.pc)) = some (0x33, 0x0200) := by decide
/-- K12. -/
theorem test_ldDelay : after ((core 0xF315).setReg 3 0x3C) (fun t => t.delayTimer) = some 0x3C := by decide
/-- K13. -/
theorem test_ldSound :
    after ((core 0xF018).setReg 0 2)
      (fun t => (t.soundTimer, (outputs t).sndOn)) = some (0x02, true) := by decide
/-- K14. -/
theorem test_ldSound_zero :
    after ({ core 0xF018 with soundTimer := 0x10 })
      (fun t => (t.soundTimer, (outputs t).sndOn)) = some (0x00, false) := by decide
/-- M3. -/
theorem test_addI :
    after ({ ((core 0xF11E).setReg 1 1).setReg vf 7 with i := 0x0FFF })
      (fun t => (t.i, t.reg vf)) = some (0x1000, 0x07) := by decide
/-- M4. -/
theorem test_addI_wraps : after ({ (core 0xF11E).setReg 1 1 with i := 0xFFFF }) (fun t => t.i) = some 0x0000 := by decide
/-- M6. -/
theorem test_ldFont : after ((core 0xF129).setReg 1 0x0F) (fun t => t.i) = some 0x009B := by decide
/-- M8. -/
theorem test_ldFont_past : after ((core 0xF129).setReg 1 0xFF) (fun t => t.i) = some 0x054B := by decide
/-- M14. -/
theorem test_ldBcd :
    after ({ (core 0xF133).setReg 1 0x7B with i := 0x0FFE })
      (fun t => (t.memory.read 0xFFE, t.memory.read 0xFFF, t.memory.read 0x000, t.i)) = some (1, 2, 3, 0x0FFE) := by decide
/-- M13. -/
theorem test_ldBcd_digits :
    after ({ (core 0xF133).setReg 1 0xFF with i := 0x0400 })
      (fun t => (t.memory.read 0x400, t.memory.read 0x401, t.memory.read 0x402)) = some (2, 5, 5) := by decide
/-- M15. -/
theorem test_storeRegs :
    after ({ (core 0xF055).setReg 0 0x99 with i := 0x0300 })
      (fun t => (t.memory.read 0x300, t.memory.read 0x301, t.i)) = some (0x99, 0x00, 0x0301) := by decide
/-- M16, its two ends and the wrap. -/
theorem test_storeRegs_wraps :
    after ({ (((core 0xFF55).setReg 0 0xA0).setReg 8 0xA8).setReg 15 0xAF with i := 0x0FF8 })
      (fun t => (t.memory.read 0xFF8, t.memory.read 0x000, t.memory.read 0x007, t.i)) = some (0xA0, 0xA8, 0xAF, 0x1008) := by decide
/-- M17. -/
theorem test_loadRegs :
    after ({ ((((core 0xF265).memWrite 0x300 2).memWrite 0x301 5).memWrite 0x302 4).memWrite 0x303 0x77 with i := 0x0300 })
      (fun t => (t.reg 0, t.reg 1, t.reg 2, t.reg 3, t.i)) = some (2, 5, 4, 0, 0x0303) := by decide
/-- M19. -/
theorem test_loadRegs_wraps :
    after ({ (core 0xF065).memWrite 0xFFF 0x77 with i := 0xFFFF })
      (fun t => (t.reg 0, t.i)) = some (0x77, 0x0000) := by decide
/-- S13. -/
theorem test_nop :
    after ((core 0x8AB8).setReg 10 0x11)
      (fun t => decide (t = { (core 0x8AB8).setReg 10 0x11 with pc := 0x0202 })) = some true := by decide

/-! ## Fetch, faults and the other events -/

/-- F2: the second byte of a fetch at 0x0FFF is at 0x000. -/
theorem test_fetch_wraps :
    after { (State.reset.memWrite 0xFFF 0x12).memWrite 0x000 0x34 with pc := 0x0FFF } (fun t => t.pc) = some 0x0234 := by decide
/-- F3: `pc` is masked for the fetch only. -/
theorem test_fetch_masks : after { core 0x6A2F with pc := 0x1200 } (fun t => (t.reg 10, t.pc)) = some (0x2F, 0x1202) := by decide
/-- F7: a halted core does nothing. -/
theorem test_halted : after { core 0x6A2F with fault := .stackOverflow } (fun t => (t.reg 10, t.pc)) = some (0, 0x0200) := by decide
/-- E1. -/
theorem test_tick :
    afterRun [.tick] { State.reset with delayTimer := 3, soundTimer := 1 } (fun t => (t.delayTimer, t.soundTimer, (outputs t).sndOn))
      = some (2, 0, false) := by decide
/-- E2 and E4: never below zero, not gated by the fault. -/
theorem test_tick_halted :
    afterRun [.tick] { State.reset with fault := .stackUnderflow, delayTimer := 5 } (fun t => (t.delayTimer, t.soundTimer, t.fault))
      = some (4, 0, .stackUnderflow) := by decide
/-- E6. -/
theorem test_keyWrite : afterRun [.keyWrite 7 true] State.reset (fun t => (t.keyDown 7, t.keyDown 6)) = some (true, false) := by decide
/-- E8. -/
theorem test_frameConsumed :
    afterRun [.frameConsumed] { State.reset with isRedrawNeeded := true } (fun t => t.isRedrawNeeded) = some false := by decide
/-- E10, in part: `Reset` clears registers, keys, memory and the fault, and keeps the font. -/
theorem test_reset_event :
    afterRun [.reset] { ((core 0x1200).setReg 3 9).memWrite 0x060 0x00 with fault := .stackOverflow, sp := 16 }
      (fun t => (t.reg 3, t.memory.read 0x200, t.memory.read 0x05F, t.fault, t.sp, t.pc)) = some (0, 0, 0xF0, .noFault, 0, 0x0200) := by
  decide
/-- E11. -/
theorem test_load :
    afterRun [.load [0x12, 0x00]] State.reset (fun t => (t.memory.read 0x200, t.memory.read 0x201, t.pc)) = some (0x12, 0x00, 0x0200) := by
  decide
/-- E14: a `Load` of no bytes fails. -/
theorem test_load_empty : (loadEvent [] State.reset).2 = false := by decide
/-- E16: the key write comes before the step at one clock edge. -/
def pressAndStep : Inputs :=
  { rst := false, ldWe := false, ldAddr := 0, ldData := 0, keyWe := true, keyIdx := 3, keyVal := true, frameAck := false, step := true,
    tick60 := true }
theorem test_coincident_strobes :
    (match clockEdge pressAndStep (core 0xF00A) with
     | .next t => some (t.reg 0, t.pc)
     | _ => none) = some (3, 0x0202) := by decide
/-- R26: a byte loaded at `pc` is fetched at the same edge, and a waiting sprite draw goes on at the edge of the acknowledge. -/
def loadAndStep : Inputs := { pressAndStep with ldWe := true, ldAddr := 0x200, ldData := 0x6A, keyWe := false, tick60 := false }
def ackAndStep : Inputs := { pressAndStep with keyWe := false, frameAck := true, tick60 := false }
theorem test_load_before_step :
    (match clockEdge loadAndStep (core 0x002F) with
     | .next t => some (t.reg 10, t.pc)
     | _ => none) = some (0x2F, 0x0202) := by decide
theorem test_ack_before_step :
    (match clockEdge ackAndStep { core 0xD011 with isRedrawNeeded := true } with
     | .next t => some (t.pc, t.isRedrawNeeded)
     | _ => none) = some (0x0202, true) := by decide
/-- R26: the tick counts down the value just written. -/
theorem test_tick_after_step :
    (match clockEdge pressAndStep ((core 0xF315).setReg 3 0x3C) with
     | .next t => some t.delayTimer
     | _ => none) = some 0x3B := by decide
/-- S9: a call and the return right after it. -/
theorem test_call_return :
    afterRun [.step, .step] ((core 0x2300).memWrite 0x301 0xEE) (fun t => (t.sp, t.pc)) = some (0, 0x0202) := by decide
/-- Self-modifying code (spec/95_test_vectors.md section 2.5): the word just stored is the next one fetched. -/
def storeThenFetch : State := { ((core 0xF155).setReg 0 0x12).setReg 1 0x0A with i := 0x0202 }
theorem test_store_then_fetch : afterRun [.step, .step] storeThenFetch (fun t => t.pc) = some 0x020A := by decide
/-- S8, its pixel (0, 0): drawing twice restores it, and the second `VF` is 1. -/
def drawTwice : State := { (core 0xD011).memWrite 0x300 0x80 with i := 0x300 }
theorem test_draw_twice :
    afterRun [.step, .frameConsumed, .step] ((drawTwice.memWrite 0x202 0xD0).memWrite 0x203 0x11)
      (fun t => (pixel t.display 0 0, t.reg vf)) = some (false, 1) := by decide

/-! ## Witnesses: the hypotheses of the statements are met together -/

/-- DecodeEncodeRoundTrip. -/
theorem test_witness_round_trip : (Instr.nop 0x8AB8).WellFormed ∧ (Instr.ldBcd 15).WellFormed := by decide
/-- DecodeFollowsOpcodeMap: a word with a row, a word without. -/
theorem test_witness_rows : (∃ r ∈ opcodeMap, (0xE09E : Word) &&& r.mask = r.bits) ∧ ∀ r ∈ opcodeMap, (0xE09F : Word) &&& r.mask ≠ r.bits := by
  decide
/-- StepRunsDecodedInstruction, PcAfterStepFollowsTable, OnlyListedInstructionsWriteState, SoundTimerIsNeverRead. -/
theorem test_witness_step :
    (core 0x6A2F).fault = .noFault ∧
    decodeBytes [(core 0x6A2F).memRead (core 0x6A2F).pc, (core 0x6A2F).memRead ((core 0x6A2F).pc + 1)] = .ok (.ldImm 10 0x2F, []) ∧
    ∃ t, step (core 0x6A2F) = .next t := ⟨rfl, rfl, _, rfl⟩
/-- HaltedStepChangesNothing, and StepKeepsInvariant in a halted state: both faults. -/
theorem test_witness_halted :
    ({ State.reset with fault := .stackOverflow, sp := 16 } : State).fault ≠ .noFault ∧
    ({ State.reset with fault := .stackOverflow, sp := 16 } : State).Inv ∧
    ({ State.reset with fault := .stackUnderflow } : State).Inv := by decide
/-- StalledStepIsIdentity and OnlyWaitsAndSelfJumpsRepeat: the sprite draw that waits. -/
theorem test_witness_draw_wait :
    ({ core 0xD011 with isRedrawNeeded := true } : State).fault = .noFault ∧
    decode ({ core 0xD011 with isRedrawNeeded := true } : State).fetch = .drw 0 1 1 ∧
    stalls (.drw 0 1 1) { core 0xD011 with isRedrawNeeded := true } = true := by decide
/-- StalledStepIsIdentity and OnlyWaitsAndSelfJumpsRepeat: the key wait. -/
theorem test_witness_key_wait :
    (core 0xF10A).fault = .noFault ∧ decode (core 0xF10A).fetch = .ldKey 1 ∧ (∀ k, (core 0xF10A).keyDown k = false) ∧
    stalls (.ldKey 1) (core 0xF10A) = true := by decide
/-- JumpSetsPc and OnlyWaitsAndSelfJumpsRepeat: a plain and a computed jump to itself. -/
theorem test_witness_self_jump :
    (core 0x1200).fault = .noFault ∧ decode (core 0x1200).fetch = .jp 0x200 ∧ (core 0x1200).pc.toNat = (0x200 : Addr).toNat ∧
    endOfRun (core 0x1200) = true ∧ decode ((core 0xB1FF).setReg 0 1).fetch = .jpV0 0x1FF ∧
    (((core 0xB1FF).setReg 0 1).reg 0).toNat + (0x1FF : Addr).toNat = ((core 0xB1FF).setReg 0 1).pc.toNat := by decide
/-- PlacedWordRunsNext. -/
theorem test_witness_placed : State.reset.fault = .noFault := rfl
/-- FirstStepAfterLoadRunsImage: the shortest and the longest image. -/
theorem test_witness_image : ([] : List Byte).length ≤ 3582 ∧ (List.replicate 3582 (0 : Byte)).length ≤ 3582 :=
  ⟨by decide, Nat.le_of_eq List.length_replicate⟩
/-- StepKeepsInvariant, RunsKeepInvariant, RunsKeepFontParameter: the reset state meets the invariant, and steps and runs go on from it. -/
theorem test_witness_invariant :
    State.reset.Inv ∧ (∃ t, step State.reset = .next t) ∧ ∃ t, runEvents [.reset, .load [0x12, 0x00], .step, .tick] State.reset = .next t :=
  ⟨by decide, ⟨_, rfl⟩, _, rfl⟩
/-- FaultsArePrecise, StackErrorsEnterFault: a call with 16 entries, a return with none. -/
theorem test_witness_stack_errors :
    ({ core 0x2300 with sp := 16 } : State).fault = .noFault ∧ decode ({ core 0x2300 with sp := 16 } : State).fetch = .call 0x300 ∧
    ({ core 0x2300 with sp := 16 } : State).sp.val = 16 ∧ decode (core 0x00EE).fetch = .ret ∧ (core 0x00EE).sp.val = 0 := by decide
/-- FaultIsLatchedUntilReset. -/
theorem test_witness_latched :
    ({ core 0x6A2F with fault := .stackUnderflow } : State).fault ≠ .noFault ∧ Event.reset ∉ [Event.step, .tick, .load [1], .keyWrite 2 true] ∧
    ∃ t, runEvents [.step, .tick, .load [1], .keyWrite 2 true] { core 0x6A2F with fault := .stackUnderflow } = .next t :=
  ⟨by decide, by decide, _, rfl⟩
/-- DeadStackEntriesAreNeverRead: two stacks that differ above `sp` only, for a call and for a return. -/
theorem test_witness_dead_stack :
    (∀ k : Fin 16, k.val < ({ core 0x2300 with sp := 1 } : State).sp.val →
      (State.reset.stack.set 5 0x0ABC)[k] = ({ core 0x2300 with sp := 1 } : State).stack[k]) ∧
    (∃ t, step { core 0x2300 with sp := 1 } = .next t) ∧ ∃ t, step { core 0x00EE with sp := 1 } = .next t := ⟨by decide, ⟨_, rfl⟩, _, rfl⟩
/-- FetchSeesPrecedingStore. -/
theorem test_witness_store_fetch :
    storeThenFetch.fault = .noFault ∧ decode storeThenFetch.fetch = .storeRegs 1 ∧ (1 : Reg).val = (0 : Reg).val + 1 ∧ (1 : Reg) ≤ 1 ∧
    ∃ t, step storeThenFetch = .next t ∧ t.pc.toNat % 4096 = (storeThenFetch.i.toNat + (0 : Reg).val) % 65536 % 4096 :=
  ⟨rfl, by decide, by decide, by decide, _, rfl, by decide⟩
/-- LoadCopiesImageOrFails: the lengths where its clauses meet. -/
theorem test_witness_load_lengths : loadFits 0 = false ∧ loadFits 1 = true ∧ loadFits 3584 = true ∧ loadFits 3585 = false := by decide
/-- TickCountsTimersDown: a timer at 0, at 1 and at 255. -/
theorem test_witness_timers :
    (0 : Byte).toNat = 0 ∧ 0 < (1 : Byte).toNat ∧ 0 < (255 : Byte).toNat ∧ (countDown 255).toNat + 1 = (255 : Byte).toNat := by decide
/-- CoincidentStrobesAreOrdered, the key write and the tick: `FX0A`, `FX15`, `FX07`. -/
theorem test_witness_strobes :
    (core 0xF00A).fault = .noFault ∧ decode (core 0xF00A).fetch = .ldKey 0 ∧ (∀ k, (core 0xF00A).keyDown k = false) ∧
    decode (core 0xF315).fetch = .ldDelay 3 ∧ decode (core 0xF307).fetch = .ldFromDelay 3 ∧
    pressAndStep.rst = false ∧ pressAndStep.ldWe = false ∧ pressAndStep.keyWe = true ∧ pressAndStep.keyVal = true ∧
    pressAndStep.step = true ∧ pressAndStep.tick60 = true := by decide
/-- CoincidentStrobesAreOrdered, `rst` with every other strobe. -/
theorem test_witness_rst : ∃ p : Inputs, p.rst = true ∧ p.ldWe = true ∧ p.keyWe = true ∧ p.frameAck = true ∧ p.step = true ∧ p.tick60 = true :=
  ⟨{ pressAndStep with rst := true, ldWe := true, frameAck := true }, by decide⟩
/-- CoincidentStrobesAreOrdered, the load write: the lowest address the port takes. -/
theorem test_witness_load_strobe :
    (core 0x002F).fault = .noFault ∧ loadAndStep.rst = false ∧ loadAndStep.ldWe = true ∧ loadAndStep.keyWe = false ∧
    loadAndStep.frameAck = false ∧ loadAndStep.step = true ∧ loadAndStep.tick60 = false ∧ 0x200 ≤ loadAndStep.ldAddr.toNat ∧
    loadAndStep.ldAddr.toNat = (core 0x002F).pc.toNat % 4096 := by decide
/-- CoincidentStrobesAreOrdered, the acknowledge. -/
theorem test_witness_ack_strobe :
    ({ core 0xD011 with isRedrawNeeded := true } : State).fault = .noFault ∧
    decode ({ core 0xD011 with isRedrawNeeded := true } : State).fetch = .drw 0 1 1 ∧ ackAndStep.rst = false ∧
    ackAndStep.ldWe = false ∧ ackAndStep.keyWe = false ∧ ackAndStep.frameAck = true ∧ ackAndStep.step = true ∧
    ackAndStep.tick60 = false := by decide
/-- The port clauses of KeyWriteSetsOneKey and RendererInterface. -/
theorem test_witness_ports :
    (∃ p : Inputs, p.rst = false ∧ p.ldWe = false ∧ p.frameAck = false ∧ p.step = false ∧ p.tick60 = false ∧ p.keyWe = true) ∧
    ∃ p : Inputs, p.rst = false ∧ p.ldWe = false ∧ p.keyWe = false ∧ p.step = false ∧ p.tick60 = false ∧ p.frameAck = true :=
  ⟨⟨{ pressAndStep with step := false, tick60 := false }, by decide⟩,
    { pressAndStep with step := false, tick60 := false, keyWe := false, frameAck := true }, by decide⟩
/-- CallPushesReturnAddress at 0 and 15 entries, ReturnPopsIntoPc at 1 and 16. -/
theorem test_witness_stack_bounds :
    State.reset.sp.val < 16 ∧ ({ State.reset with sp := 15 } : State).sp.val < 16 ∧ 0 < ({ State.reset with sp := 1 } : State).sp.val ∧
    0 < ({ State.reset with sp := 16 } : State).sp.val := by decide
/-- CallThenReturnComesBack. -/
theorem test_witness_call_return :
    ((core 0x2300).memWrite 0x301 0xEE).fault = .noFault ∧ ((core 0x2300).memWrite 0x301 0xEE).sp.val < 16 ∧
    decode ((core 0x2300).memWrite 0x301 0xEE).fetch = .call 0x300 ∧
    decode (((core 0x2300).memWrite 0x301 0xEE).memReadWord (zextAddr 0x300)) = .ret := by decide
/-- SkipsCompareRegisters: equal and unequal operands. -/
theorem test_witness_skips :
    State.reset.reg 3 = 0 ∧ State.reset.reg 3 ≠ 0x2A ∧ State.reset.reg 1 = State.reset.reg 2 ∧
    (State.reset.setReg 1 7).reg 1 ≠ (State.reset.setReg 1 7).reg 2 := by decide
/-- LogicOperationsClearVf, AddAndSubtractSetVf, ShiftsTakeVy: a destination that is not `VF`; a flag of each value, at its boundary. -/
theorem test_witness_flags :
    (14 : Reg) ≠ vf ∧ (0x80 : Byte).toNat + (0x7F : Byte).toNat = 255 ∧ (0x80 : Byte).toNat + (0x80 : Byte).toNat > 255 ∧
    (7 : Byte).toNat ≥ (7 : Byte).toNat ∧ ¬ (6 : Byte).toNat ≥ (7 : Byte).toNat := by decide
/-- The row clauses: a word of a row of each mask. -/
theorem test_witness_row_clauses :
    (0x1FFF : Word) &&& 0xF000 = 0x1000 ∧ (0x8FF0 : Word) &&& 0xF00F = 0x8000 ∧ (0xFF29 : Word) &&& 0xF0FF = 0xF029 := by decide
/-- DecimalDigitsStored, BlockStoreAdvancesIndex: an address that is none of the stored ones. -/
theorem test_witness_frame_address :
    0x300 ≠ State.reset.i.toNat % 4096 ∧ 0x300 ≠ (State.reset.i.toNat + 1) % 65536 % 4096 ∧
    0x300 ≠ (State.reset.i.toNat + 2) % 65536 % 4096 ∧ ∀ k ≤ (15 : Reg), 0x300 ≠ (State.reset.i.toNat + k.val) % 65536 % 4096 := by decide
/-- StoreThenLoadRestoresRegisters. -/
theorem test_witness_store_load :
    ∃ t u, exec (.storeRegs 15) State.reset = .next t ∧
      exec (.loadRegs 15) { t with i := State.reset.i, v := Vector.replicate 16 0xEE } = .next u := ⟨_, _, rfl, rfl⟩
/-- DrawTogglesCoveredCells: a cell that is covered, the cell beside it that is not, and a bit clipped at column 64. -/
theorem test_witness_draw :
    drawTwice.isRedrawNeeded = false ∧ Claims.Covers drawTwice 0 0 1 0 0 ∧ ¬ Claims.SpriteBit drawTwice 0 1 ∧
    Claims.Covers drawTwice 64 0 1 64 0 :=
  ⟨rfl, ⟨0, 0, by decide, by decide, rfl, rfl, by unfold Claims.SpriteBit; decide⟩, by unfold Claims.SpriteBit; decide,
    ⟨0, 0, by decide, by decide, rfl, rfl, by unfold Claims.SpriteBit; decide⟩⟩
/-- DrawWaitsForRenderer. -/
theorem test_witness_draw_pending : ({ State.reset with isRedrawNeeded := true } : State).isRedrawNeeded = true := rfl
/-- DoubleDrawRestoresDisplay. -/
theorem test_witness_double_draw :
    (0 : Reg) ≠ vf ∧ (1 : Reg) ≠ vf ∧ drawTwice.isRedrawNeeded = false ∧
    ∃ t u, exec (.drw 0 1 1) drawTwice = .next t ∧ exec (.drw 0 1 1) (frameConsumedEvent t) = .next u :=
  ⟨by decide, by decide, rfl, _, _, rfl, rfl⟩
/-- KeySkipsTestOneKey: the key of a value above 15, down and up. -/
theorem test_witness_key :
    (5 : Key).val = ((State.reset.setReg 1 0xF5).reg 1).toNat % 16 ∧
    ({ State.reset with keyboard := State.reset.keyboard.set 5 true } : State).keyDown 5 = true ∧ State.reset.keyDown 5 = false := by
  decide
/-- KeyWaitTakesLowestKey: a lowest key with another above it, and no key. -/
theorem test_witness_lowest_key :
    ({ State.reset with keyboard := (State.reset.keyboard.set 9 true).set 12 true } : State).keyDown 9 = true ∧
    (∀ j < (9 : Key), ({ State.reset with keyboard := (State.reset.keyboard.set 9 true).set 12 true } : State).keyDown j = false) ∧
    ∀ k, State.reset.keyDown k = false := by decide
/-- RandomByteIsMasked: a mask of 0. -/
theorem test_witness_mask : ∃ nn : Byte, nn = 0 := ⟨0, rfl⟩
/-- UnrecognisedWordsAreNoOps: zeroed memory. -/
theorem test_witness_noop : State.reset.fault = .noFault ∧ ∀ r ∈ opcodeMap, State.reset.fetch &&& r.mask ≠ r.bits := by decide

end Sys2Proof.Tests
end

section
/-! PROOF. The operand fields bit by bit (spec/30_encoding.md R51): every field is one `extractLsb'`, so its bit `k` is the word's
bit `k` above the field's lowest, and a joined word has the lower byte in bits 7:0 and the upper byte above it. -/

namespace Sys2Proof

theorem extract_getLsbD (w : Word) {start len k : Nat} (hk : k < len) :
    (w.extractLsb' start len).getLsbD k = w.getLsbD (start + k) := by
  rw [BitVec.getLsbD_extractLsb', decide_eq_true hk, Bool.true_and]

theorem opFamily_getLsbD (w : Word) {k : Nat} (hk : k < 4) : (opFamily w).getLsbD k = w.getLsbD (12 + k) :=
  extract_getLsbD w hk

/-- The index of a register is the number of its four-bit field, so the bits of the one are the bits of the other. -/
theorem opX_testBit (w : Word) {k : Nat} (hk : k < 4) : (opX w).val.testBit k = w.getLsbD (8 + k) :=
  extract_getLsbD w hk

theorem opY_testBit (w : Word) {k : Nat} (hk : k < 4) : (opY w).val.testBit k = w.getLsbD (4 + k) :=
  extract_getLsbD w hk

theorem opN_getLsbD (w : Word) {k : Nat} (hk : k < 4) : (opN w).getLsbD k = w.getLsbD k := by
  rw [opN, extract_getLsbD w hk, Nat.zero_add]

theorem opNN_getLsbD (w : Word) {k : Nat} (hk : k < 8) : (opNN w).getLsbD k = w.getLsbD k := by
  rw [opNN, extract_getLsbD w hk, Nat.zero_add]

theorem opNNN_getLsbD (w : Word) {k : Nat} (hk : k < 12) : (opNNN w).getLsbD k = w.getLsbD k := by
  rw [opNNN, extract_getLsbD w hk, Nat.zero_add]

theorem joinBytes_getLsbD_upper (hi lo : Byte) (k : Nat) : (joinBytes hi lo).getLsbD (8 + k) = hi.getLsbD k := by
  rw [joinBytes, BitVec.getLsbD_append, if_neg (by omega), Nat.add_sub_cancel_left]

theorem joinBytes_getLsbD_lower (hi lo : Byte) {k : Nat} (hk : k < 8) : (joinBytes hi lo).getLsbD k = lo.getLsbD k := by
  rw [joinBytes, BitVec.getLsbD_append, if_pos hk]

end Sys2Proof

open Sys2Proof

/-- Settles O4: one lemma per field, and one per half of a joined word. -/
theorem fieldsAreTheirBits : Obligations.FieldsAreTheirBits := by
  unfold Obligations.FieldsAreTheirBits
  refine ⟨fun hi lo k hk => ⟨joinBytes_getLsbD_upper hi lo k, joinBytes_getLsbD_lower hi lo hk⟩, fun w => ?_⟩
  exact ⟨fun _ hk => opFamily_getLsbD w hk, fun _ hk => opX_testBit w hk, fun _ hk => opY_testBit w hk,
    fun _ hk => opN_getLsbD w hk, fun _ hk => opNN_getLsbD w hk, fun _ hk => opNNN_getLsbD w hk⟩
end

section
/-! PROOF. Unrecognised words (spec/40_step_cycle.md R75): a word that no row of the opcode map selects meets the default of its
family at level 2 of the decoder, because every other branch of both levels has a row (spec/30_encoding.md R60, R62). -/

namespace Sys2Proof

/-- No row of the opcode map selects the word. -/
def Unselected (w : Word) : Prop := ∀ r ∈ opcodeMap, w &&& r.mask ≠ r.bits

/-- The opcode map has a row with this mask and these bits. -/
abbrev HasRow (mask bits : Word) : Prop := ∃ r ∈ opcodeMap, r.mask = mask ∧ r.bits = bits

theorem Unselected.and_ne {w mask bits : Word} (h : Unselected w) (hr : HasRow mask bits) : w &&& mask ≠ bits := by
  obtain ⟨r, hr, rfl, rfl⟩ := hr
  exact h r hr

theorem Unselected.opNN_ne {w : Word} (h : Unselected w) {f : BitVec 4} (hf : opFamily w = f) {nn : Byte}
    (hr : HasRow 0xF0FF (f ++ 0#4 ++ nn)) : opNN w ≠ nn :=
  fun hn => h.and_ne hr (by rw [and_F0FF, hf, hn])

theorem Unselected.opN_ne {w : Word} (h : Unselected w) {f : BitVec 4} (hf : opFamily w = f) {n : BitVec 4}
    (hr : HasRow 0xF00F (f ++ 0#8 ++ n)) : opN w ≠ n :=
  fun hn => h.and_ne hr (by rw [and_F00F, hf, hn])

/-! Level 2: each branch but the default has its row. -/

theorem decodeFamily0_of_unselected {w : Word} (h : Unselected w) (hf : opFamily w = 0x0) : decodeFamily0 w = .nop w := by
  unfold decodeFamily0
  split
  case h_3 => rfl
  all_goals exact absurd ‹opNN w = _› (h.opNN_ne hf (by decide))

theorem decodeFamily8_of_unselected {w : Word} (h : Unselected w) (hf : opFamily w = 0x8) : decodeFamily8 w = .nop w := by
  unfold decodeFamily8
  split
  case h_10 => rfl
  all_goals exact absurd ‹opN w = _› (h.opN_ne hf (by decide))

theorem decodeFamilyE_of_unselected {w : Word} (h : Unselected w) (hf : opFamily w = 0xE) : decodeFamilyE w = .nop w := by
  unfold decodeFamilyE
  split
  case h_3 => rfl
  all_goals exact absurd ‹opNN w = _› (h.opNN_ne hf (by decide))

theorem decodeFamilyF_of_unselected {w : Word} (h : Unselected w) (hf : opFamily w = 0xF) : decodeFamilyF w = .nop w := by
  unfold decodeFamilyF
  split
  case h_10 => rfl
  all_goals exact absurd ‹opNN w = _› (h.opNN_ne hf (by decide))

/-- Level 1: a family without a level 2 has a row that inspects the family nibble only. -/
theorem levelTwo_or_hasRow : ∀ f : BitVec 4, f = 0x0 ∨ f = 0x8 ∨ f = 0xE ∨ f = 0xF ∨ HasRow 0xF000 (f ++ 0#12) := by decide

theorem decode_of_unselected {w : Word} (h : Unselected w) : decode w = .nop w := by
  unfold decode
  obtain hf | hf | hf | hf | hr := levelTwo_or_hasRow (opFamily w)
  · rw [hf]; exact decodeFamily0_of_unselected h hf
  · rw [hf]; exact decodeFamily8_of_unselected h hf
  · rw [hf]; exact decodeFamilyE_of_unselected h hf
  · rw [hf]; exact decodeFamilyF_of_unselected h hf
  · exact absurd (and_F000 w) (h.and_ne hr)

namespace Machine

theorem exec_nop (w : Word) (s : State) : exec (.nop w) s = .next s := rfl

theorem step_of_unselected {s : State} (hrun : s.fault = .noFault) (h : Unselected s.fetch) : step s = .next s.advance := by
  rw [step_running hrun, decode_of_unselected h, exec_nop]

end Machine
end Sys2Proof

open Sys2Proof

/-- Settles O59: the no-op's arm of `exec`, and the step that meets it because the fetched word decodes to the no-op. -/
theorem unrecognisedWordsAreNoOps : Obligations.UnrecognisedWordsAreNoOps :=
  ⟨Machine.exec_nop, fun _ hrun h => Machine.step_of_unselected hrun h⟩
end

section
/-! PROOF. Control transfer (spec/41_control_flow.md R81, R83 to R87): the rows that the family nibble selects alone, what a jump and
a conditional skip do to `pc`, and the jumps and the compare-and-skip instructions as instances of the two. -/

namespace Sys2Proof

open Sys2Proof.Machine

namespace Claims

/-- A row that inspects the family nibble only: the decoder's level 1 settles it. -/
theorem rowIs_of_family {bits : Word} {f : Word → Instr} (h : ∀ w, opFamily w = opFamily bits → decode w = f w) :
    RowIs 0xF000 bits f :=
  fun w hw => h w (fields_of_F000 hw)

theorem rowIs_jp : RowIs 0xF000 0x1000 (fun w => .jp (opNNN w)) :=
  rowIs_of_family fun w hf => by unfold decode; rw [hf]; rfl

theorem rowIs_seImm : RowIs 0xF000 0x3000 (fun w => .seImm (opX w) (opNN w)) :=
  rowIs_of_family fun w hf => by unfold decode; rw [hf]; rfl

theorem rowIs_sneImm : RowIs 0xF000 0x4000 (fun w => .sneImm (opX w) (opNN w)) :=
  rowIs_of_family fun w hf => by unfold decode; rw [hf]; rfl

theorem rowIs_seReg : RowIs 0xF000 0x5000 (fun w => .seReg (opX w) (opY w)) :=
  rowIs_of_family fun w hf => by unfold decode; rw [hf]; rfl

theorem rowIs_sneReg : RowIs 0xF000 0x9000 (fun w => .sneReg (opX w) (opY w)) :=
  rowIs_of_family fun w hf => by unfold decode; rw [hf]; rfl

theorem rowIs_jpV0 : RowIs 0xF000 0xB000 (fun w => .jpV0 (opNNN w)) :=
  rowIs_of_family fun w hf => by unfold decode; rw [hf]; rfl

end Claims

namespace Machine

/-! The arms of `exec`, as a jump or a skip. -/

theorem exec_jp (nnn : Addr) (s : State) : exec (.jp nnn) s = .next (s.jumpTo (zextAddr nnn)) := rfl

theorem exec_jpV0 (nnn : Addr) (s : State) : exec (.jpV0 nnn) s = .next (s.jumpTo (zextByte (s.reg 0) + zextAddr nnn)) := rfl

theorem exec_seImm (x : Reg) (nn : Byte) (s : State) : exec (.seImm x nn) s = .next (s.skipIf (s.reg x == nn)) := rfl

theorem exec_sneImm (x : Reg) (nn : Byte) (s : State) : exec (.sneImm x nn) s = .next (s.skipIf (s.reg x != nn)) := rfl

theorem exec_seReg (x y : Reg) (s : State) : exec (.seReg x y) s = .next (s.skipIf (s.reg x == s.reg y)) := rfl

theorem exec_sneReg (x y : Reg) (s : State) : exec (.sneReg x y) s = .next (s.skipIf (s.reg x != s.reg y)) := rfl

/-! Jumps. -/

theorem State.jumpTo_only_pc (s : State) (a : Word) : s.jumpTo a = { s with pc := (s.jumpTo a).pc } := rfl

/-- The advance of the fetch is overwritten, so a jump back to the instruction's own address gives the state before the step. -/
theorem State.advance_jumpTo_self (s : State) : s.advance.jumpTo s.pc = s := rfl

/-- A byte and a 12-bit address are too small for their 16-bit sum to wrap. -/
theorem zextByte_add_zextAddr_toNat (b : Byte) (nnn : Addr) : (zextByte b + zextAddr nnn).toNat = b.toNat + nnn.toNat := by
  have hb := b.isLt
  have hn := nnn.isLt
  rw [BitVec.toNat_add, zextByte_toNat, zextAddr_toNat]; omega

theorem step_jp_self {s : State} {nnn : Addr} (hrun : s.fault = .noFault) (hd : decode s.fetch = .jp nnn)
    (hpc : s.pc.toNat = nnn.toNat) : step s = .next s := by
  have ha : zextAddr nnn = s.pc := BitVec.eq_of_toNat_eq (by rw [zextAddr_toNat, hpc])
  rw [step_running hrun, hd, exec_jp, ha, State.advance_jumpTo_self]

/-! Skips. -/

/-- An outcome that skips on the test `c`, in terms of a condition `p` under which `c` holds and a condition `q` under which it
fails. -/
theorem skipIf_outcome {o : Host.Outcome State Fault Refusal} {s : State} {c : Bool} (ho : o = .next (s.skipIf c)) {p q : Prop}
    (hp : p → c = true) (hq : q → c = false) :
    ∃ t, o = .next t ∧ t = { s with pc := t.pc } ∧ (p → t.pc = s.pc + 2) ∧ (q → t.pc = s.pc) := by
  refine ⟨s.skipIf c, ho, ?_, fun h => ?_, fun h => ?_⟩
  · rw [State.skipIf_pc, ← State.skipIf_only_pc]
  · rw [hp h, State.skipIf_true, State.jumpTo_pc]
  · rw [hq h, State.skipIf_false]

end Machine
end Sys2Proof

open Sys2Proof Sys2Proof.Machine Sys2Proof.Claims

/-- Settles O33: a jump writes `pc` alone, and one to the instruction's own address undoes the advance of the fetch. -/
theorem jumpSetsPc : Obligations.JumpSetsPc :=
  ⟨rowIs_jp, fun nnn s => ⟨_, exec_jp nnn s, zextAddr_toNat nnn, s.jumpTo_only_pc _⟩,
    fun _ _ hrun hd hpc => step_jp_self hrun hd hpc⟩

/-- Settles O34: a jump to a 16-bit sum that cannot wrap. -/
theorem computedJumpAddsV0 : Obligations.ComputedJumpAddsV0 :=
  ⟨rowIs_jpV0, fun nnn s => ⟨_, exec_jpV0 nnn s, zextByte_add_zextAddr_toNat (s.reg 0) nnn, s.jumpTo_only_pc _⟩⟩

/-- Settles O39: each of the four skips on a test of equality, which decides its condition. -/
theorem skipsCompareRegisters : Obligations.SkipsCompareRegisters :=
  ⟨rowIs_seImm, rowIs_sneImm, rowIs_seReg, rowIs_sneReg,
    fun x nn s => skipIf_outcome (exec_seImm x nn s) beq_iff_eq.2 beq_eq_false_iff_ne.2,
    fun x nn s => skipIf_outcome (exec_sneImm x nn s) bne_iff_ne.2 bne_eq_false_iff_eq.2,
    fun x y s => skipIf_outcome (exec_seReg x y s) beq_iff_eq.2 beq_eq_false_iff_ne.2,
    fun x y s => skipIf_outcome (exec_sneReg x y s) bne_iff_ne.2 bne_eq_false_iff_eq.2⟩
end

section
/-! PROOF. Register loads, immediate add and the logic operations (spec/42_load_and_alu.md R90 to R95): the rows of family 8, what a
write of a register and a write of a register with its flag do to the register file, and the instructions as instances of the two. -/

namespace Sys2Proof

open Sys2Proof.Machine

namespace Claims

theorem rowIs_ldImm : RowIs 0xF000 0x6000 (fun w => .ldImm (opX w) (opNN w)) :=
  rowIs_of_family fun w hf => by unfold decode; rw [hf]; rfl

theorem rowIs_addImm : RowIs 0xF000 0x7000 (fun w => .addImm (opX w) (opNN w)) :=
  rowIs_of_family fun w hf => by unfold decode; rw [hf]; rfl

theorem decode_of_family8 {w : Word} (hf : opFamily w = 0x8) : decode w = decodeFamily8 w := by
  unfold decode; rw [hf]; rfl

/-- A row of family 8, which inspects the low nibble too: level 2 of the decoder settles it. -/
theorem rowIs_of_family8 {bits : Word} {f : Word → Instr} (hb : opFamily bits = 0x8)
    (h : ∀ w, opN w = opN bits → decodeFamily8 w = f w) : RowIs 0xF00F bits f := by
  intro w hw
  obtain ⟨hf, hn⟩ := fields_of_F00F hw
  rw [decode_of_family8 (hf.trans hb), h w hn]

theorem rowIs_ldReg : RowIs 0xF00F 0x8000 (fun w => .ldReg (opX w) (opY w)) :=
  rowIs_of_family8 rfl fun w hn => by unfold decodeFamily8; rw [hn]; rfl

theorem rowIs_orReg : RowIs 0xF00F 0x8001 (fun w => .orReg (opX w) (opY w)) :=
  rowIs_of_family8 rfl fun w hn => by unfold decodeFamily8; rw [hn]; rfl

theorem rowIs_andReg : RowIs 0xF00F 0x8002 (fun w => .andReg (opX w) (opY w)) :=
  rowIs_of_family8 rfl fun w hn => by unfold decodeFamily8; rw [hn]; rfl

theorem rowIs_xorReg : RowIs 0xF00F 0x8003 (fun w => .xorReg (opX w) (opY w)) :=
  rowIs_of_family8 rfl fun w hn => by unfold decodeFamily8; rw [hn]; rfl

/-! The registers that a write reaches. -/

theorem onlyRegs_setReg (s : State) (x : Reg) (b : Byte) : OnlyRegs [x] s (s.setReg x b) :=
  ⟨rfl, fun _ hk => State.reg_setReg_other s b (List.ne_of_not_mem_cons hk)⟩

theorem onlyRegs_setRegFlag (s : State) (x : Reg) (b : Byte) (flag : Bool) : OnlyRegs [x, vf] s (s.setRegFlag x b flag) := by
  refine ⟨s.setRegFlag_only_v x b flag, fun k hk => ?_⟩
  obtain ⟨hx, hvf⟩ : k ≠ x ∧ k ≠ vf := by simpa using hk
  rw [State.reg_setRegFlag, if_neg hvf, if_neg hx]

end Claims

namespace Machine

open Sys2Proof.Claims

/-! The arms of `exec`, as a write of a register or of a register with its flag. -/

theorem exec_ldImm (x : Reg) (nn : Byte) (s : State) : exec (.ldImm x nn) s = .next (s.setReg x nn) := rfl

theorem exec_addImm (x : Reg) (nn : Byte) (s : State) : exec (.addImm x nn) s = .next (s.setReg x (s.reg x + nn)) := rfl

theorem exec_ldReg (x y : Reg) (s : State) : exec (.ldReg x y) s = .next (s.setReg x (s.reg y)) := rfl

theorem exec_orReg (x y : Reg) (s : State) :
    exec (.orReg x y) s = .next (s.setRegFlag x (s.reg x ||| s.reg y) false) := rfl

theorem exec_andReg (x y : Reg) (s : State) :
    exec (.andReg x y) s = .next (s.setRegFlag x (s.reg x &&& s.reg y) false) := rfl

theorem exec_xorReg (x y : Reg) (s : State) :
    exec (.xorReg x y) s = .next (s.setRegFlag x (s.reg x ^^^ s.reg y) false) := rfl

/-- The flag is written last, so it is what `VF` holds for every destination (R101). -/
theorem State.reg_setRegFlag_vf (s : State) (x : Reg) (b : Byte) (flag : Bool) :
    (s.setRegFlag x b flag).reg vf = flagByte flag := by
  rw [State.reg_setRegFlag, if_pos rfl]

theorem State.reg_setRegFlag_same (s : State) {x : Reg} (b : Byte) (flag : Bool) (hx : x ≠ vf) :
    (s.setRegFlag x b flag).reg x = b := by
  rw [State.reg_setRegFlag, if_neg hx, if_pos rfl]

/-- An outcome that writes the byte `b` to a register, in terms of a property that `b` has. -/
theorem setReg_outcome {o : Host.Outcome State Fault Refusal} {s : State} {x : Reg} {b : Byte} (ho : o = .next (s.setReg x b))
    {p : Byte → Prop} (hb : p b) : ∃ t, o = .next t ∧ p (t.reg x) ∧ OnlyRegs [x] s t :=
  ⟨_, ho, (State.reg_setReg_same s x b).symm ▸ hb, onlyRegs_setReg s x b⟩

/-- An outcome that writes the byte `b` to a register and then clears `VF`, in terms of the bits of `b`. -/
theorem clearVf_outcome {o : Host.Outcome State Fault Refusal} {s : State} {x : Reg} {b : Byte}
    (ho : o = .next (s.setRegFlag x b false)) {bit : Nat → Bool} (hb : ∀ k < 8, b.getLsbD k = bit k) :
    ∃ t, o = .next t ∧ t.reg vf = 0 ∧ OnlyRegs [x, vf] s t ∧ (x ≠ vf → ∀ k < 8, (t.reg x).getLsbD k = bit k) := by
  refine ⟨_, ho, s.reg_setRegFlag_vf x b false, onlyRegs_setRegFlag s x b false, fun hx => ?_⟩
  rw [s.reg_setRegFlag_same b false hx]
  exact hb

end Machine
end Sys2Proof

open Sys2Proof Sys2Proof.Machine Sys2Proof.Claims

/-- Settles O40: each of the two writes its operand to the one register. -/
theorem loadsWriteOneRegister : Obligations.LoadsWriteOneRegister :=
  ⟨rowIs_ldImm, rowIs_ldReg, fun x nn s => setReg_outcome (p := (· = nn)) (exec_ldImm x nn s) rfl,
    fun x y s => setReg_outcome (p := (· = s.reg y)) (exec_ldReg x y s) rfl⟩

/-- Settles O41: the byte written is a sum of 8-bit vectors, which wraps modulo 256. -/
theorem addImmediateWraps : Obligations.AddImmediateWraps :=
  ⟨rowIs_addImm, fun x nn s =>
    setReg_outcome (p := fun b => b.toNat = ((s.reg x).toNat + nn.toNat) % 256) (exec_addImm x nn s) (BitVec.toNat_add _ _)⟩

/-- Settles O42: the byte written is the operation of the two operands bit by bit, and the flag written last is 0. -/
theorem logicOperationsClearVf : Obligations.LogicOperationsClearVf :=
  ⟨rowIs_orReg, rowIs_andReg, rowIs_xorReg,
    fun x y s => clearVf_outcome (exec_orReg x y s) fun _ _ => BitVec.getLsbD_or,
    fun x y s => clearVf_outcome (exec_andReg x y s) fun _ _ => BitVec.getLsbD_and,
    fun x y s => clearVf_outcome (exec_xorReg x y s) fun _ _ => BitVec.getLsbD_xor⟩
end

section
/-! PROOF. The index register and the memory instructions (spec/43_index_and_memory.md R105, R107 to R110): the rows of family F, the
addresses `i + k` as numbers, and the instructions as a write of `i`, three writes of memory, a block store and a block load. -/

namespace Sys2Proof

open Sys2Proof.Machine

namespace Claims

theorem rowIs_ldI : RowIs 0xF000 0xA000 (fun w => .ldI (opNNN w)) :=
  rowIs_of_family fun w hf => by unfold decode; rw [hf]; rfl

theorem decode_of_familyF {w : Word} (hf : opFamily w = 0xF) : decode w = decodeFamilyF w := by
  unfold decode; rw [hf]; rfl

/-- A row of family F, which inspects the low byte too: level 2 of the decoder settles it. -/
theorem rowIs_of_familyF {bits : Word} {f : Word → Instr} (hb : opFamily bits = 0xF)
    (h : ∀ w, opNN w = opNN bits → decodeFamilyF w = f w) : RowIs 0xF0FF bits f := by
  intro w hw
  obtain ⟨hf, hn⟩ := fields_of_F0FF hw
  rw [decode_of_familyF (hf.trans hb), h w hn]

theorem rowIs_ldFont : RowIs 0xF0FF 0xF029 (fun w => .ldFont (opX w)) :=
  rowIs_of_familyF rfl fun w hn => by unfold decodeFamilyF; rw [hn]; rfl

theorem rowIs_ldBcd : RowIs 0xF0FF 0xF033 (fun w => .ldBcd (opX w)) :=
  rowIs_of_familyF rfl fun w hn => by unfold decodeFamilyF; rw [hn]; rfl

theorem rowIs_storeRegs : RowIs 0xF0FF 0xF055 (fun w => .storeRegs (opX w)) :=
  rowIs_of_familyF rfl fun w hn => by unfold decodeFamilyF; rw [hn]; rfl

theorem rowIs_loadRegs : RowIs 0xF0FF 0xF065 (fun w => .loadRegs (opX w)) :=
  rowIs_of_familyF rfl fun w hn => by unfold decodeFamilyF; rw [hn]; rfl

end Claims

namespace Machine

/-! The index register. -/

theorem exec_ldI (nnn : Addr) (s : State) : exec (.ldI nnn) s = .next (s.setI (zextAddr nnn)) := rfl

theorem exec_ldFont (x : Reg) (s : State) : exec (.ldFont x) s = .next (s.setI (glyphAddr (s.reg x))) := rfl

theorem State.setI_only_i (s : State) (a : Word) : s.setI a = { s with i := (s.setI a).i } := rfl

/-- The advance of `i` wraps modulo 2^16 (R109, R110). -/
theorem State.advanceI_i_toNat (s : State) (x : Reg) : (s.advanceI x).i.toNat = (s.i.toNat + x.val + 1) % 65536 := by
  rw [State.advanceI_i, BitVec.toNat_add, BitVec.toNat_ofNat, Nat.add_mod_mod, Nat.add_assoc]

/-! The three digits. -/

/-- The decimal digits of `b` written at `i`, `i + 1` and `i + 2`. -/
def State.storeDigits (s : State) (b : Byte) : State :=
  ((s.memWrite (s.indexed 0) (hundredsDigit b)).memWrite (s.indexed 1) (tensDigit b)).memWrite (s.indexed 2) (unitsDigit b)

theorem exec_ldBcd (x : Reg) (s : State) : exec (.ldBcd x) s = .next (s.storeDigits (s.reg x)) := rfl

theorem State.storeDigits_only_memory (s : State) (b : Byte) :
    s.storeDigits b = { s with memory := (s.storeDigits b).memory } := rfl

theorem State.maskAddr_indexed (s : State) (k : Nat) : maskAddr (s.indexed k) = (s.i.toNat + k) % 65536 % 4096 :=
  maskAddr_add s.i k

/-- The last of the three writes to an address decides what it holds. -/
theorem State.read_storeDigits (s : State) (b : Byte) (a : Nat) :
    (s.storeDigits b).memory.read a =
      if a = (s.i.toNat + 2) % 65536 % 4096 then unitsDigit b
      else if a = (s.i.toNat + 1) % 65536 % 4096 then tensDigit b
      else if a = s.i.toNat % 4096 then hundredsDigit b
      else s.memory.read a := by
  have hi : (s.i.toNat + 0) % 65536 % 4096 = s.i.toNat % 4096 := by omega
  simp only [State.storeDigits, State.memWrite_memory, Memory.read_write, State.maskAddr_indexed, hi]

/-- The three addresses are distinct, so no digit overwrites another. -/
theorem State.read_storeDigits_hundreds (s : State) (b : Byte) :
    (s.storeDigits b).memory.read (s.i.toNat % 4096) = hundredsDigit b := by
  rw [State.read_storeDigits, if_neg (by omega), if_neg (by omega), if_pos rfl]

theorem State.read_storeDigits_tens (s : State) (b : Byte) :
    (s.storeDigits b).memory.read ((s.i.toNat + 1) % 65536 % 4096) = tensDigit b := by
  rw [State.read_storeDigits, if_neg (by omega), if_pos rfl]

theorem State.read_storeDigits_units (s : State) (b : Byte) :
    (s.storeDigits b).memory.read ((s.i.toNat + 2) % 65536 % 4096) = unitsDigit b := by
  rw [State.read_storeDigits, if_pos rfl]

theorem State.read_storeDigits_other (s : State) (b : Byte) {a : Nat} (h0 : a ≠ s.i.toNat % 4096)
    (h1 : a ≠ (s.i.toNat + 1) % 65536 % 4096) (h2 : a ≠ (s.i.toNat + 2) % 65536 % 4096) :
    (s.storeDigits b).memory.read a = s.memory.read a := by
  rw [State.read_storeDigits, if_neg h2, if_neg h1, if_neg h0]

/-! Block store. -/

/-- `v[0]` to `v[x]` written from `i` up, and `i` past them. -/
def State.storeBlock (s : State) (x : Reg) : State := (s.storeList s.i (regsUpTo x)).advanceI x

theorem exec_storeRegs (x : Reg) (s : State) : exec (.storeRegs x) s = .next (s.storeBlock x) := rfl

theorem State.storeBlock_only_i_memory (s : State) (x : Reg) :
    s.storeBlock x = { s with i := (s.storeBlock x).i, memory := (s.storeBlock x).memory } := by
  rw [State.storeBlock, s.storeList_only_memory]; rfl

theorem State.storeBlock_i_toNat (s : State) (x : Reg) : (s.storeBlock x).i.toNat = (s.i.toNat + x.val + 1) % 65536 := by
  rw [State.storeBlock, State.advanceI_i_toNat, s.storeList_only_memory]

theorem State.read_storeBlock_same (s : State) {x k : Reg} (hk : k ≤ x) :
    (s.storeBlock x).memory.read ((s.i.toNat + k.val) % 65536 % 4096) = s.reg k := by
  rw [← maskAddr_add]
  exact s.read_storeList_same s.i _ (mem_regsUpTo.2 hk)

theorem State.read_storeBlock_other (s : State) {x : Reg} {a : Nat} (h : ∀ k ≤ x, a ≠ (s.i.toNat + k.val) % 65536 % 4096) :
    (s.storeBlock x).memory.read a = s.memory.read a :=
  s.read_storeList_other s.i _ a fun k hk => maskAddr_add s.i k.val ▸ h k (mem_regsUpTo.1 hk)

/-! Block load. -/

/-- `v[0]` to `v[x]` read from `i` up, and `i` past them. -/
def State.loadBlock (s : State) (x : Reg) : State := (s.loadList s.i (regsUpTo x)).advanceI x

theorem exec_loadRegs (x : Reg) (s : State) : exec (.loadRegs x) s = .next (s.loadBlock x) := rfl

theorem State.loadBlock_only_i_v (s : State) (x : Reg) :
    s.loadBlock x = { s with i := (s.loadBlock x).i, v := (s.loadBlock x).v } := by
  rw [State.loadBlock, s.loadList_only_v]; rfl

theorem State.loadBlock_i_toNat (s : State) (x : Reg) : (s.loadBlock x).i.toNat = (s.i.toNat + x.val + 1) % 65536 := by
  rw [State.loadBlock, State.advanceI_i_toNat, s.loadList_only_v]

/-- Every byte comes from the memory and the `i` before the instruction. -/
theorem State.reg_loadBlock (s : State) (x k : Reg) :
    (s.loadBlock x).reg k = if k ≤ x then s.memory.read ((s.i.toNat + k.val) % 65536 % 4096) else s.reg k := by
  simp only [State.loadBlock, State.advanceI_reg, State.reg_loadList, mem_regsUpTo, State.memRead, maskAddr_add]

end Machine
end Sys2Proof

open Sys2Proof Sys2Proof.Machine Sys2Proof.Claims

/-- Settles O45: two writes of `i`, each of an address that 16 bits hold. -/
theorem indexLoads : Obligations.IndexLoads :=
  ⟨rowIs_ldI, rowIs_ldFont, fun nnn s => ⟨_, exec_ldI nnn s, zextAddr_toNat nnn, s.setI_only_i _⟩,
    fun x s => ⟨_, exec_ldFont x s, glyphAddr_toNat (s.reg x), s.setI_only_i _⟩⟩

/-- Settles O47: three writes to distinct addresses, and the digits as numbers. -/
theorem decimalDigitsStored : Obligations.DecimalDigitsStored := by
  refine ⟨rowIs_ldBcd, fun x s => ⟨_, exec_ldBcd x s, s.storeDigits_only_memory _, ?_, ?_, ?_, fun a => ?_⟩⟩
  · rw [s.read_storeDigits_hundreds, hundredsDigit_toNat]
  · rw [s.read_storeDigits_tens, tensDigit_toNat]
  · rw [s.read_storeDigits_units, unitsDigit_toNat]
  · exact s.read_storeDigits_other _

/-- Settles O48: a block store at the old `i`, whose 16 addresses stay apart under the mask, then the advance of `i`. -/
theorem blockStoreAdvancesIndex : Obligations.BlockStoreAdvancesIndex :=
  ⟨rowIs_storeRegs, fun x s => ⟨_, exec_storeRegs x s, s.storeBlock_only_i_memory x, s.storeBlock_i_toNat x,
    fun _ hk => s.read_storeBlock_same hk, fun _ h => s.read_storeBlock_other h⟩⟩

/-- Settles O49: a block load from the old `i`, then the advance of `i`. -/
theorem blockLoadAdvancesIndex : Obligations.BlockLoadAdvancesIndex :=
  ⟨rowIs_loadRegs, fun x s => ⟨_, exec_loadRegs x s, s.loadBlock_only_i_v x, s.loadBlock_i_toNat x,
    fun k hk => (s.reg_loadBlock x k).trans (if_pos hk), fun k hk => (s.reg_loadBlock x k).trans (if_neg hk.not_ge)⟩⟩
end

section
/-! PROOF. Clearing the screen (spec/44_display.md R115): the row of family 0, and `00E0` as a redraw request for a blank display. -/

namespace Sys2Proof

open Sys2Proof.Machine

namespace Claims

theorem decode_of_family0 {w : Word} (hf : opFamily w = 0x0) : decode w = decodeFamily0 w := by
  unfold decode; rw [hf]; rfl

/-- A row of family 0, which inspects the low byte too: level 2 of the decoder settles it. -/
theorem rowIs_of_family0 {bits : Word} {f : Word → Instr} (hb : opFamily bits = 0x0)
    (h : ∀ w, opNN w = opNN bits → decodeFamily0 w = f w) : RowIs 0xF0FF bits f := by
  intro w hw
  obtain ⟨hf, hn⟩ := fields_of_F0FF hw
  rw [decode_of_family0 (hf.trans hb), h w hn]

theorem rowIs_cls : RowIs 0xF0FF 0x00E0 (fun _ => .cls) :=
  rowIs_of_family0 rfl fun w hn => by unfold decodeFamily0; rw [hn]; rfl

end Claims

namespace Machine

theorem exec_cls (s : State) : exec .cls s = .next (s.showDisplay blankDisplay) := rfl

theorem State.showDisplay_only_display_isRedrawNeeded (s : State) (d : Display) : s.showDisplay d =
    { s with display := (s.showDisplay d).display, isRedrawNeeded := (s.showDisplay d).isRedrawNeeded } := rfl

end Machine
end Sys2Proof

open Sys2Proof Sys2Proof.Machine Sys2Proof.Claims

/-- Settles O51: the display shown is the blank one, and showing a display marks a redraw and leaves the rest. -/
theorem clearScreen : Obligations.ClearScreen :=
  ⟨rowIs_cls, fun s => ⟨_, exec_cls s, pixel_blankDisplay, s.showDisplay_isRedrawNeeded _,
    s.showDisplay_only_display_isRedrawNeeded _⟩⟩
end

section
/-! PROOF. Key wait and timers (spec/45_keys_timers_random.md R122 to R125): the rows of family F, the key wait as the scan's two
outcomes, and the timer moves with the output that follows the sound timer. -/

namespace Sys2Proof

open Sys2Proof.Machine

namespace Claims

theorem rowIs_ldKey : RowIs 0xF0FF 0xF00A (fun w => .ldKey (opX w)) :=
  rowIs_of_familyF rfl fun w hn => by unfold decodeFamilyF; rw [hn]; rfl

theorem rowIs_ldFromDelay : RowIs 0xF0FF 0xF007 (fun w => .ldFromDelay (opX w)) :=
  rowIs_of_familyF rfl fun w hn => by unfold decodeFamilyF; rw [hn]; rfl

theorem rowIs_ldDelay : RowIs 0xF0FF 0xF015 (fun w => .ldDelay (opX w)) :=
  rowIs_of_familyF rfl fun w hn => by unfold decodeFamilyF; rw [hn]; rfl

theorem rowIs_ldSound : RowIs 0xF0FF 0xF018 (fun w => .ldSound (opX w)) :=
  rowIs_of_familyF rfl fun w hn => by unfold decodeFamilyF; rw [hn]; rfl

end Claims

namespace Machine

/-! The key wait. -/

theorem exec_ldKey (x : Reg) (s : State) : exec (.ldKey x) s = execLdKey x s := rfl

theorem execLdKey_of_lowest {s : State} (x : Reg) {k : Key} (hk : s.keyDown k = true) (hlow : ∀ j < k, s.keyDown j = false) :
    execLdKey x s = .next (s.setReg x (BitVec.ofNat 8 k.val)) := by
  rw [execLdKey, (State.lowestKey_eq_some_iff s k).2 ⟨hk, hlow⟩]

theorem execLdKey_of_no_key {s : State} (x : Reg) (h : ∀ k, s.keyDown k = false) : execLdKey x s = .next s.stall := by
  rw [execLdKey, (State.lowestKey_eq_none_iff s).2 h]

/-- A key's number fits a byte. -/
theorem keyByte_toNat (k : Key) : (BitVec.ofNat 8 k.val).toNat = k.val :=
  Nat.mod_eq_of_lt (k.isLt.trans (by decide))

/-! The timers. -/

theorem exec_ldFromDelay (x : Reg) (s : State) : exec (.ldFromDelay x) s = .next (s.setReg x s.delayTimer) := rfl

theorem exec_ldDelay (x : Reg) (s : State) : exec (.ldDelay x) s = .next (s.setDelay (s.reg x)) := rfl

theorem exec_ldSound (x : Reg) (s : State) : exec (.ldSound x) s = .next (s.setSound (s.reg x)) := rfl

/-- The output is `sound_timer > 0` (R125), which for a byte is that it is not 0. -/
theorem outputs_sndOn_iff (s : State) : (outputs s).sndOn = true ↔ s.soundTimer ≠ 0 := by
  rw [outputs, decide_eq_true_iff, gt_iff_lt, Nat.pos_iff_ne_zero, ← BitVec.toNat_ne_iff_ne]; rfl

end Machine
end Sys2Proof

open Sys2Proof Sys2Proof.Machine Sys2Proof.Claims

/-- Settles O56: the scan finds the lowest key down, whose number is the one register's new value, and finds none if none is down. -/
theorem keyWaitTakesLowestKey : Obligations.KeyWaitTakesLowestKey := by
  refine ⟨rowIs_ldKey, fun x k s hk hlow => ?_, fun x s h => ?_⟩
  · exact setReg_outcome (p := fun b => b.toNat = k.val) ((exec_ldKey x s).trans (execLdKey_of_lowest x hk hlow)) (keyByte_toNat k)
  · exact (exec_ldKey x s).trans (execLdKey_of_no_key x h)

/-- Settles O57: a write of one register, two writes of a timer, and the output as a function of the sound timer just written. -/
theorem timerMoves : Obligations.TimerMoves :=
  ⟨rowIs_ldFromDelay, rowIs_ldDelay, rowIs_ldSound,
    fun x s => setReg_outcome (p := (· = s.delayTimer)) (exec_ldFromDelay x s) rfl, exec_ldDelay,
    fun x s => ⟨_, exec_ldSound x s, rfl, outputs_sndOn_iff (s.setSound (s.reg x))⟩⟩
end

section
/-! PROOF. The key write (spec/60_exceptions.md R141): an edge at which only `key_we` is high, and the write as one entry of the
keyboard. -/

namespace Sys2Proof

open Sys2Proof.Machine

namespace Machine

/-- An edge with neither `rst` nor `step`: the strobes before the step, then the strobe after it. -/
theorem clockEdge_of_no_step {p : Inputs} (hr : p.rst = false) (hs : p.step = false) (s : State) :
    clockEdge p s = .next (edgeAfterStep p (edgeBeforeStep p s)) := by
  simp [clockEdge, hr, hs]

theorem edgeAfterStep_of_no_tick {p : Inputs} (h : p.tick60 = false) (s : State) : edgeAfterStep p s = s := by
  simp [edgeAfterStep, h]

theorem edgeBeforeStep_of_keyWe_alone {p : Inputs} (hl : p.ldWe = false) (hk : p.keyWe = true) (ha : p.frameAck = false)
    (s : State) : edgeBeforeStep p s = keyWriteEvent p.keyIdx p.keyVal s := by
  simp [edgeBeforeStep, hl, hk, ha]

theorem keyWriteEvent_only_keyboard (k : Key) (b : Bool) (s : State) :
    keyWriteEvent k b s = { s with keyboard := (keyWriteEvent k b s).keyboard } := rfl

theorem keyWriteEvent_keyDown_same (s : State) (k : Key) (b : Bool) : (keyWriteEvent k b s).keyDown k = b :=
  (keyWriteEvent_keyDown s k k b).trans (if_pos rfl)

theorem keyWriteEvent_keyDown_other (s : State) {k j : Key} (h : j ≠ k) (b : Bool) :
    (keyWriteEvent k b s).keyDown j = s.keyDown j :=
  (keyWriteEvent_keyDown s k j b).trans (if_neg h)

/-- Writing the value that a key has puts the keyboard's own entry back. -/
theorem keyWriteEvent_keyDown_self (s : State) (k : Key) : keyWriteEvent k (s.keyDown k) s = s := by
  have hset : s.keyboard.set k (s.keyDown k) = s.keyboard := Vector.set_getElem_self k.isLt
  rw [keyWriteEvent, hset]

end Machine
end Sys2Proof

open Sys2Proof Sys2Proof.Machine

/-- Settles O29: the edge is the key write alone, and the key write sets one entry of the keyboard. -/
theorem keyWriteSetsOneKey : Obligations.KeyWriteSetsOneKey := by
  refine ⟨fun p s hr hl ha hs ht hk => ?_, fun s k b => ⟨keyWriteEvent k b s, rfl, keyWriteEvent_only_keyboard k b s,
    keyWriteEvent_keyDown_same s k b, fun _ hj => keyWriteEvent_keyDown_other s hj b, ?_⟩⟩
  · rw [clockEdge_of_no_step hr hs, edgeAfterStep_of_no_tick ht, edgeBeforeStep_of_keyWe_alone hl hk ha]
    rfl
  · rintro rfl
    exact keyWriteEvent_keyDown_self s k
end

section
/-! PROOF. Encoding and decoding (spec/30_encoding.md sections 1 to 3): every row of the opcode map as a clause on the decoder, from
which the map's disjointness and the no-op follow by the rows' names; then the two round trips, field by field. -/

namespace Sys2Proof

open Sys2Proof.Machine

namespace Claims

/-! The rows that have no clause above. -/

theorem rowIs_ret : RowIs 0xF0FF 0x00EE (fun _ => .ret) :=
  rowIs_of_family0 rfl fun w hn => by unfold decodeFamily0; rw [hn]; rfl

theorem rowIs_call : RowIs 0xF000 0x2000 (fun w => .call (opNNN w)) :=
  rowIs_of_family fun w hf => by unfold decode; rw [hf]; rfl

theorem rowIs_addReg : RowIs 0xF00F 0x8004 (fun w => .addReg (opX w) (opY w)) :=
  rowIs_of_family8 rfl fun w hn => by unfold decodeFamily8; rw [hn]; rfl

theorem rowIs_subReg : RowIs 0xF00F 0x8005 (fun w => .subReg (opX w) (opY w)) :=
  rowIs_of_family8 rfl fun w hn => by unfold decodeFamily8; rw [hn]; rfl

theorem rowIs_shrReg : RowIs 0xF00F 0x8006 (fun w => .shrReg (opX w) (opY w)) :=
  rowIs_of_family8 rfl fun w hn => by unfold decodeFamily8; rw [hn]; rfl

theorem rowIs_subnReg : RowIs 0xF00F 0x8007 (fun w => .subnReg (opX w) (opY w)) :=
  rowIs_of_family8 rfl fun w hn => by unfold decodeFamily8; rw [hn]; rfl

theorem rowIs_shlReg : RowIs 0xF00F 0x800E (fun w => .shlReg (opX w) (opY w)) :=
  rowIs_of_family8 rfl fun w hn => by unfold decodeFamily8; rw [hn]; rfl

theorem rowIs_rnd : RowIs 0xF000 0xC000 (fun w => .rnd (opX w) (opNN w)) :=
  rowIs_of_family fun w hf => by unfold decode; rw [hf]; rfl

theorem rowIs_drw : RowIs 0xF000 0xD000 (fun w => .drw (opX w) (opY w) (opN w).toFin) :=
  rowIs_of_family fun w hf => by unfold decode; rw [hf]; rfl

theorem decode_of_familyE {w : Word} (hf : opFamily w = 0xE) : decode w = decodeFamilyE w := by
  unfold decode; rw [hf]; rfl

/-- A row of family E, which inspects the low byte too: level 2 of the decoder settles it. -/
theorem rowIs_of_familyE {bits : Word} {f : Word → Instr} (hb : opFamily bits = 0xE)
    (h : ∀ w, opNN w = opNN bits → decodeFamilyE w = f w) : RowIs 0xF0FF bits f := by
  intro w hw
  obtain ⟨hf, hn⟩ := fields_of_F0FF hw
  rw [decode_of_familyE (hf.trans hb), h w hn]

theorem rowIs_skp : RowIs 0xF0FF 0xE09E (fun w => .skp (opX w)) :=
  rowIs_of_familyE rfl fun w hn => by unfold decodeFamilyE; rw [hn]; rfl

theorem rowIs_sknp : RowIs 0xF0FF 0xE0A1 (fun w => .sknp (opX w)) :=
  rowIs_of_familyE rfl fun w hn => by unfold decodeFamilyE; rw [hn]; rfl

theorem rowIs_addI : RowIs 0xF0FF 0xF01E (fun w => .addI (opX w)) :=
  rowIs_of_familyF rfl fun w hn => by unfold decodeFamilyF; rw [hn]; rfl

/-- What the decoder owes a row: the words that select the row decode to an instruction `f` reads from the fields, `f` answers the
row's mnemonic, and encoding it gives the word back up to the bits the row does not inspect. -/
structure RowDecodes (r : OpRow) (f : Word → Instr) : Prop where
  row : RowIs r.mask r.bits f
  name : ∀ w, (f w).mnemonic = r.mnemonic
  word : ∀ w, w &&& r.mask = r.bits → encode (f w) = canonicalWord w

end Claims

/-! The formats give back the word their fields are read from. -/

theorem packA_opNNN {w : Word} {f : Nat} (hf : (opFamily w).toNat = f) : packA f (opNNN w) = w := by
  rw [opFamily_toNat] at hf
  apply BitVec.eq_of_toNat_eq
  have := w.isLt
  rw [packA_toNat (by omega), opNNN_toNat]; omega

theorem packXI_opX_opNN {w : Word} {f : Nat} (hf : (opFamily w).toNat = f) : packXI f (opX w) (opNN w) = w := by
  rw [opFamily_toNat] at hf
  apply BitVec.eq_of_toNat_eq
  have := w.isLt
  rw [packXI_toNat (by omega), opX_val, opNN_toNat]; omega

theorem packNibbles_opX_opY_opN {w : Word} {f : Nat} (hf : (opFamily w).toNat = f) :
    packNibbles f (opX w) (opY w) (opN w).toNat = w := by
  rw [opFamily_toNat] at hf
  rw [opX_val, opY_val, opN_toNat, ← hf]
  exact (eq_packNibbles w).symm

/-! The word without the bits that its row does not inspect. -/

namespace Claims

/-- Families 0, 5 and 9 alone have rows that leave bits uninspected outside the operand fields. -/
theorem canonicalWord_of_family {w : Word} (h : opFamily w ∉ [0x0, 0x5, 0x9]) : canonicalWord w = w := by
  obtain ⟨h0, h5, h9⟩ : opFamily w ≠ 0x0 ∧ opFamily w ≠ 0x5 ∧ opFamily w ≠ 0x9 := by simpa using h
  rw [canonicalWord, if_neg, if_neg]
  · rintro (hw | hw)
    · exact h5 (fields_of_F000 hw)
    · exact h9 (fields_of_F000 hw)
  · rintro (hw | hw)
    · exact h0 (fields_of_F0FF hw).1
    · exact h0 (fields_of_F0FF hw).1

theorem and_FFF0_toNat (w : Word) : (w &&& (0xFFF0 : Word)).toNat = w.toNat / 16 * 16 := by
  have hw : w &&& (0xFFF0 : Word) = w.extractLsb' 4 12 ++ 0#4 := by
    ext k hk
    rw [BitVec.getElem_and, BitVec.getElem_append]
    interval_cases k <;> simp
  have := w.isLt
  rw [hw, append_toNat, extract_toNat, BitVec.toNat_ofNat]; omega

/-- `5XYk` and `9XYk` stand for the word with `k` = 0. -/
theorem canonicalWord_of_compare {w : Word} (hf : opFamily w = 0x5 ∨ opFamily w = 0x9) :
    canonicalWord w = packNibbles (opFamily w).toNat (opX w) (opY w) 0 := by
  rw [canonicalWord, if_neg, if_pos]
  · apply BitVec.eq_of_toNat_eq
    have := w.isLt
    rw [and_FFF0_toNat, opFamily_toNat, opX_val, opY_val, packNibbles_toNat (by omega) (by omega) (by omega) (by omega)]
    omega
  · rw [and_F000]
    exact hf.imp (fun h => by rw [h]; rfl) (fun h => by rw [h]; rfl)
  · rintro (hw | hw) <;> exact absurd ((fields_of_F0FF hw).1 ▸ hf) (by decide)

/-! The rows, format by format. What the decoder and the encoder owe the row beside its `RowIs` clause is checked by evaluation. -/

section
variable {m : String} {bits : Word} {f : Word → Instr}

/-- A row outside families 0, 5 and 9, whose words carry nothing but the bits it inspects and its operands. -/
theorem rowDecodes_of_encode_eq {r : OpRow} (row : RowIs r.mask r.bits f) (name : ∀ w, (f w).mnemonic = r.mnemonic)
    (hfam : ∀ w, w &&& r.mask = r.bits → opFamily w = opFamily r.bits) (hr : opFamily r.bits ∉ [0x0, 0x5, 0x9])
    (he : ∀ w, w &&& r.mask = r.bits → encode (f w) = w) : RowDecodes r f := by
  refine ⟨row, name, fun w hw => (he w hw).trans (canonicalWord_of_family ?_).symm⟩
  rwa [hfam w hw]

theorem rowDecodes_packA (row : RowIs 0xF000 bits f) (name : ∀ w, (f w).mnemonic = m := by exact fun _ => rfl)
    (he : ∀ w, encode (f w) = packA (opFamily bits).toNat (opNNN w) := by exact fun _ => rfl)
    (hr : opFamily bits ∉ [0x0, 0x5, 0x9] := by decide) : RowDecodes ⟨m, 0xF000, bits⟩ f := by
  refine rowDecodes_of_encode_eq row name (fun _ => fields_of_F000) hr fun w hw => ?_
  rw [he, packA_opNNN (congrArg _ (fields_of_F000 hw))]

theorem rowDecodes_packXI (row : RowIs 0xF000 bits f) (name : ∀ w, (f w).mnemonic = m := by exact fun _ => rfl)
    (he : ∀ w, encode (f w) = packXI (opFamily bits).toNat (opX w) (opNN w) := by exact fun _ => rfl)
    (hr : opFamily bits ∉ [0x0, 0x5, 0x9] := by decide) : RowDecodes ⟨m, 0xF000, bits⟩ f := by
  refine rowDecodes_of_encode_eq row name (fun _ => fields_of_F000) hr fun w hw => ?_
  rw [he, packXI_opX_opNN (congrArg _ (fields_of_F000 hw))]

theorem rowDecodes_packNibbles (row : RowIs 0xF000 bits f) (name : ∀ w, (f w).mnemonic = m := by exact fun _ => rfl)
    (he : ∀ w, encode (f w) = packNibbles (opFamily bits).toNat (opX w) (opY w) (opN w).toNat := by exact fun _ => rfl)
    (hr : opFamily bits ∉ [0x0, 0x5, 0x9] := by decide) : RowDecodes ⟨m, 0xF000, bits⟩ f := by
  refine rowDecodes_of_encode_eq row name (fun _ => fields_of_F000) hr fun w hw => ?_
  rw [he, packNibbles_opX_opY_opN (congrArg _ (fields_of_F000 hw))]

/-- The low byte is the row's own. -/
theorem rowDecodes_packXI_low (row : RowIs 0xF0FF bits f) (name : ∀ w, (f w).mnemonic = m := by exact fun _ => rfl)
    (he : ∀ w, encode (f w) = packXI (opFamily bits).toNat (opX w) (opNN bits) := by exact fun _ => rfl)
    (hr : opFamily bits ∉ [0x0, 0x5, 0x9] := by decide) : RowDecodes ⟨m, 0xF0FF, bits⟩ f := by
  refine rowDecodes_of_encode_eq row name (fun w hw => (fields_of_F0FF hw).1) hr fun w hw => ?_
  obtain ⟨hf, hn⟩ := fields_of_F0FF hw
  rw [he, ← hn, packXI_opX_opNN (congrArg _ hf)]

/-- The low nibble is the row's own. -/
theorem rowDecodes_packNibbles_low (row : RowIs 0xF00F bits f) (name : ∀ w, (f w).mnemonic = m := by exact fun _ => rfl)
    (he : ∀ w, encode (f w) = packNibbles (opFamily bits).toNat (opX w) (opY w) (opN bits).toNat := by exact fun _ => rfl)
    (hr : opFamily bits ∉ [0x0, 0x5, 0x9] := by decide) : RowDecodes ⟨m, 0xF00F, bits⟩ f := by
  refine rowDecodes_of_encode_eq row name (fun w hw => (fields_of_F00F hw).1) hr fun w hw => ?_
  obtain ⟨hf, hn⟩ := fields_of_F00F hw
  rw [he, ← hn, packNibbles_opX_opY_opN (congrArg _ hf)]

/-- The low nibble is not inspected. -/
theorem rowDecodes_compare (row : RowIs 0xF000 bits f) (name : ∀ w, (f w).mnemonic = m := by exact fun _ => rfl)
    (he : ∀ w, encode (f w) = packNibbles (opFamily bits).toNat (opX w) (opY w) 0 := by exact fun _ => rfl)
    (hr : opFamily bits = 0x5 ∨ opFamily bits = 0x9 := by decide) : RowDecodes ⟨m, 0xF000, bits⟩ f := by
  refine ⟨row, name, fun w hw => ?_⟩
  have hf := fields_of_F000 hw
  rw [he, ← hf, canonicalWord_of_compare (hf ▸ hr)]

/-- The second nibble is not inspected. -/
theorem rowDecodes_family0 (row : RowIs 0xF0FF bits f) (name : ∀ w, (f w).mnemonic = m := by exact fun _ => rfl)
    (he : ∀ w, encode (f w) = bits := by exact fun _ => rfl) (hr : bits = 0x00E0 ∨ bits = 0x00EE := by decide) :
    RowDecodes ⟨m, 0xF0FF, bits⟩ f := by
  refine ⟨row, name, fun w (hw : w &&& 0xF0FF = bits) => ?_⟩
  rw [he, canonicalWord, if_pos, hw]
  rwa [hw]

end

/-- Every row of the map is what the decoder follows. -/
theorem opcodeMap_rowDecodes : ∀ r ∈ opcodeMap, ∃ f, RowDecodes r f := by
  simp only [opcodeMap, opcodeMapLow, opcodeMapAlu, opcodeMapHigh, opcodeMapMisc, List.cons_append, List.nil_append,
    List.forall_mem_cons]
  exact
    ⟨⟨_, rowDecodes_family0 rowIs_cls⟩,
     ⟨_, rowDecodes_family0 rowIs_ret⟩,
     ⟨_, rowDecodes_packA rowIs_jp⟩,
     ⟨_, rowDecodes_packA rowIs_call⟩,
     ⟨_, rowDecodes_packXI rowIs_seImm⟩,
     ⟨_, rowDecodes_packXI rowIs_sneImm⟩,
     ⟨_, rowDecodes_compare rowIs_seReg⟩,
     ⟨_, rowDecodes_packXI rowIs_ldImm⟩,
     ⟨_, rowDecodes_packXI rowIs_addImm⟩,
     ⟨_, rowDecodes_packNibbles_low rowIs_ldReg⟩,
     ⟨_, rowDecodes_packNibbles_low rowIs_orReg⟩,
     ⟨_, rowDecodes_packNibbles_low rowIs_andReg⟩,
     ⟨_, rowDecodes_packNibbles_low rowIs_xorReg⟩,
     ⟨_, rowDecodes_packNibbles_low rowIs_addReg⟩,
     ⟨_, rowDecodes_packNibbles_low rowIs_subReg⟩,
     ⟨_, rowDecodes_packNibbles_low rowIs_shrReg⟩,
     ⟨_, rowDecodes_packNibbles_low rowIs_subnReg⟩,
     ⟨_, rowDecodes_packNibbles_low rowIs_shlReg⟩,
     ⟨_, rowDecodes_compare rowIs_sneReg⟩,
     ⟨_, rowDecodes_packA rowIs_ldI⟩,
     ⟨_, rowDecodes_packA rowIs_jpV0⟩,
     ⟨_, rowDecodes_packXI rowIs_rnd⟩,
     ⟨_, rowDecodes_packNibbles rowIs_drw⟩,
     ⟨_, rowDecodes_packXI_low rowIs_skp⟩,
     ⟨_, rowDecodes_packXI_low rowIs_sknp⟩,
     ⟨_, rowDecodes_packXI_low rowIs_ldFromDelay⟩,
     ⟨_, rowDecodes_packXI_low rowIs_ldKey⟩,
     ⟨_, rowDecodes_packXI_low rowIs_ldDelay⟩,
     ⟨_, rowDecodes_packXI_low rowIs_ldSound⟩,
     ⟨_, rowDecodes_packXI_low rowIs_addI⟩,
     ⟨_, rowDecodes_packXI_low rowIs_ldFont⟩,
     ⟨_, rowDecodes_packXI_low rowIs_ldBcd⟩,
     ⟨_, rowDecodes_packXI_low rowIs_storeRegs⟩,
     ⟨_, rowDecodes_packXI_low rowIs_loadRegs⟩, nofun⟩

/-- The rows have distinct names. -/
theorem opcodeMap_mnemonics_nodup : (opcodeMap.map OpRow.mnemonic).Nodup := by decide

theorem decode_mnemonic_of_row {r : OpRow} (hr : r ∈ opcodeMap) {w : Word} (hw : w &&& r.mask = r.bits) :
    (decode w).mnemonic = r.mnemonic := by
  obtain ⟨f, hf⟩ := opcodeMap_rowDecodes r hr
  rw [hf.row w hw, hf.name]

/-- A word has a row or is the no-op. -/
theorem selected_or_unselected (w : Word) : (∃ r ∈ opcodeMap, w &&& r.mask = r.bits) ∨ Unselected w := by
  by_cases h : ∃ r ∈ opcodeMap, w &&& r.mask = r.bits
  · exact .inl h
  · exact .inr fun r hr hw => h ⟨r, hr, hw⟩

theorem decode_eq_nop_iff (w : Word) : Unselected w ↔ decode w = .nop w := by
  refine ⟨decode_of_unselected, fun h r hr hw => ?_⟩
  exact Laws.RowSelects.no_row_is_nop r hr ((decode_mnemonic_of_row hr hw).symm.trans (congrArg Instr.mnemonic h))

/-- The name of the decoded instruction tells which row selects the word, because the names are distinct. -/
theorem row_selects_iff {r : OpRow} (hr : r ∈ opcodeMap) (w : Word) :
    w &&& r.mask = r.bits ↔ (decode w).mnemonic = r.mnemonic := by
  refine ⟨decode_mnemonic_of_row hr, fun hm => ?_⟩
  rcases selected_or_unselected w with ⟨q, hq, hw⟩ | hu
  · have hqr : q = r := List.inj_on_of_nodup_map opcodeMap_mnemonics_nodup hq hr ((decode_mnemonic_of_row hq hw).symm.trans hm)
    exact hqr ▸ hw
  · rw [decode_of_unselected hu] at hm
    exact absurd hm.symm (Laws.RowSelects.no_row_is_nop r hr)

theorem opcodeMap_disjoint {r q : OpRow} (hr : r ∈ opcodeMap) (hq : q ∈ opcodeMap) {w : Word} (hwr : w &&& r.mask = r.bits)
    (hwq : w &&& q.mask = q.bits) : r = q :=
  List.inj_on_of_nodup_map opcodeMap_mnemonics_nodup hr hq
    ((decode_mnemonic_of_row hr hwr).symm.trans (decode_mnemonic_of_row hq hwq))

/-- A no-op's word is one that all four rows with uninspected bits leave alone. -/
theorem canonicalWord_of_unselected {w : Word} (h : Unselected w) : canonicalWord w = w := by
  rw [canonicalWord, if_neg, if_neg]
  · exact not_or.2 ⟨h.and_ne (by decide), h.and_ne (by decide)⟩
  · exact not_or.2 ⟨h.and_ne (by decide), h.and_ne (by decide)⟩

theorem encode_decode (w : Word) : encode (decode w) = canonicalWord w := by
  rcases selected_or_unselected w with ⟨r, hr, hw⟩ | hu
  · obtain ⟨f, hf⟩ := opcodeMap_rowDecodes r hr
    rw [hf.row w hw, hf.word w hw]
  · rw [decode_of_unselected hu, canonicalWord_of_unselected hu]; rfl

/-! Well-formedness. -/

theorem recognised_eq_false_iff (w : Word) : recognised w = false ↔ Unselected w := by
  simp [recognised, Unselected, OpRow.selects]

theorem wellFormed_nop_iff (w : Word) : (Instr.nop w).WellFormed ↔ Unselected w := by
  rw [← recognised_eq_false_iff, Instr.WellFormed, Instr.wellFormed, Bool.not_eq_true']

theorem wellFormed_of_mnemonic_ne {i : Instr} (h : i.mnemonic ≠ "NOP") : i.WellFormed := by
  cases i with
  | nop w => exact absurd rfl h
  | _ => rfl

theorem decode_wellFormed (w : Word) : (decode w).WellFormed := by
  rcases selected_or_unselected w with ⟨r, hr, hw⟩ | hu
  · exact wellFormed_of_mnemonic_ne (decode_mnemonic_of_row hr hw ▸ Laws.RowSelects.no_row_is_nop r hr)
  · rw [decode_of_unselected hu]
    exact (wellFormed_nop_iff w).2 hu

end Claims

/-! The fields of a word that a format has packed. -/

section
variable {f : Nat} (hf : f < 16)
include hf

theorem opFamily_packA (nnn : Addr) : opFamily (packA f nnn) = BitVec.ofNat 4 f := by
  apply BitVec.eq_of_toNat_eq
  have := nnn.isLt
  rw [opFamily_toNat, packA_toNat hf, BitVec.toNat_ofNat]; omega

theorem opNNN_packA (nnn : Addr) : opNNN (packA f nnn) = nnn := by
  apply BitVec.eq_of_toNat_eq
  have := nnn.isLt
  rw [opNNN_toNat, packA_toNat hf]; omega

theorem opFamily_packXI (x : Reg) (nn : Byte) : opFamily (packXI f x nn) = BitVec.ofNat 4 f := by
  apply BitVec.eq_of_toNat_eq
  have := nn.isLt
  rw [opFamily_toNat, packXI_toNat hf, BitVec.toNat_ofNat]; omega

theorem opX_packXI (x : Reg) (nn : Byte) : opX (packXI f x nn) = x := by
  apply Fin.ext
  have := nn.isLt
  rw [opX_val, packXI_toNat hf]; omega

theorem opNN_packXI (x : Reg) (nn : Byte) : opNN (packXI f x nn) = nn := by
  apply BitVec.eq_of_toNat_eq
  have := nn.isLt
  rw [opNN_toNat, packXI_toNat hf]; omega

theorem opFamily_packNibbles (x y : Reg) {n : Nat} (hn : n < 16) : opFamily (packNibbles f x y n) = BitVec.ofNat 4 f := by
  apply BitVec.eq_of_toNat_eq
  rw [opFamily_toNat, packNibbles_toNat hf x.isLt y.isLt hn, BitVec.toNat_ofNat]; omega

theorem opX_packNibbles (x y : Reg) {n : Nat} (hn : n < 16) : opX (packNibbles f x y n) = x := by
  apply Fin.ext
  rw [opX_val, packNibbles_toNat hf x.isLt y.isLt hn]; omega

theorem opY_packNibbles (x y : Reg) {n : Nat} (hn : n < 16) : opY (packNibbles f x y n) = y := by
  apply Fin.ext
  rw [opY_val, packNibbles_toNat hf x.isLt y.isLt hn]; omega

theorem opN_packNibbles (x y : Reg) {n : Nat} (hn : n < 16) : opN (packNibbles f x y n) = BitVec.ofNat 4 n := by
  apply BitVec.eq_of_toNat_eq
  rw [opN_toNat, packNibbles_toNat hf x.isLt y.isLt hn, BitVec.toNat_ofNat]; omega

end

/-- The family and the low byte or nibble that the format has packed lead the decoder to the instruction's own branch, which reads the
operands back. -/
theorem decode_encode (i : Instr) (h : i.WellFormed) : decode (encode i) = i := by
  cases i with
  | cls | ret => rfl
  | jp | call | ldI | jpV0 => simp [encode, decode, opFamily_packA, opNNN_packA]
  | seImm | sneImm | ldImm | addImm | rnd => simp [encode, decode, opFamily_packXI, opX_packXI, opNN_packXI]
  | seReg | sneReg | drw => simp [encode, decode, opFamily_packNibbles, opX_packNibbles, opY_packNibbles, opN_packNibbles]
  | ldReg | orReg | andReg | xorReg | addReg | subReg | shrReg | subnReg | shlReg =>
    simp [encode, decode, decodeFamily8, opFamily_packNibbles, opX_packNibbles, opY_packNibbles, opN_packNibbles]
  | skp | sknp => simp [encode, decode, decodeFamilyE, opFamily_packXI, opX_packXI, opNN_packXI]
  | ldFromDelay | ldKey | ldDelay | ldSound | addI | ldFont | ldBcd | storeRegs | loadRegs =>
    simp [encode, decode, decodeFamilyF, opFamily_packXI, opX_packXI, opNN_packXI]
  | nop w => exact decode_of_unselected ((Claims.wellFormed_nop_iff w).1 h)

/-! The decoder on bytes. -/

theorem decodeBytes_of_word (w : Word) (rest : List Byte) :
    decodeBytes (BitVec.ofNat 8 (w.toNat / 256) :: BitVec.ofNat 8 (w.toNat % 256) :: rest) = .ok (decode w, rest) := by
  have hw : joinBytes (BitVec.ofNat 8 (w.toNat / 256)) (BitVec.ofNat 8 (w.toNat % 256)) = w := by
    apply BitVec.eq_of_toNat_eq
    have := w.isLt
    rw [joinBytes_toNat, BitVec.toNat_ofNat, BitVec.toNat_ofNat]; omega
  rw [decodeBytes_cons, hw]

theorem decodeBytes_eq_error_iff (bs : List Byte) : decodeBytes bs = .error .truncated ↔ bs.length < 2 := by
  match bs with
  | [] => simp [decodeBytes]
  | [_] => simp [decodeBytes]
  | _ :: _ :: _ => simp [decodeBytes]

end Sys2Proof

open Sys2Proof Sys2Proof.Claims

/-- Settles O1: the decoder's branch and operands are the fields that the instruction's format has packed; a no-op's word has no
row. -/
theorem decodeEncodeRoundTrip : Obligations.DecodeEncodeRoundTrip := decode_encode

/-- Settles O2: row by row of the map, and a word without a row is kept whole. -/
theorem encodeDecodeIsCanonicalWord : Obligations.EncodeDecodeIsCanonicalWord := encode_decode

/-- Settles O3: a word's row gives the decoded instruction its name, and the rows have distinct names. -/
theorem decodeFollowsOpcodeMap : Obligations.DecodeFollowsOpcodeMap :=
  ⟨rfl, fun w => ⟨fun _ hr => row_selects_iff hr w, fun _ hr _ hq hwr hwq => opcodeMap_disjoint hr hq hwr hwq,
    decode_eq_nop_iff w⟩⟩

/-- Settles O5: the decoder evaluated on the twelve words. -/
theorem specWordsDecode : Obligations.SpecWordsDecode := by
  unfold Obligations.SpecWordsDecode
  decide

/-- Settles O6: a word with a row decodes to an instruction with the row's name, which is not the no-op's. -/
theorem decodedInstructionsAreWellFormed : Obligations.DecodedInstructionsAreWellFormed := decode_wellFormed

/-- Settles O7: two bytes join to the word whose halves they are; shorter lists meet the decoder's other branch. -/
theorem bytesDecodeBigEndian : Obligations.BytesDecodeBigEndian := ⟨decodeBytes_of_word, decodeBytes_eq_error_iff⟩
end

section
/-! PROOF. What one instruction can do to the state, said once (`Effect`), and what every statement about all instructions needs of
it: the frame of each piece of state, fault entry, memory's canonical form, and `pc` (spec/10_state.md section 1,
spec/40_step_cycle.md R72, spec/60_exceptions.md section 1). -/

namespace Sys2Proof

open Sys2Proof.Machine Sys2Proof.Claims

namespace Machine

/-! The arms of `exec` that have no equation above. -/

theorem exec_ret (s : State) : exec .ret s = execRet s := rfl

theorem exec_call (nnn : Addr) (s : State) : exec (.call nnn) s = execCall nnn s := rfl

theorem exec_drw (x y : Reg) (n : Fin 16) (s : State) : exec (.drw x y n) s = execDrw x y n s := rfl

theorem exec_addI (x : Reg) (s : State) : exec (.addI x) s = .next (s.setI (s.i + zextByte (s.reg x))) := rfl

theorem exec_rnd (x : Reg) (nn : Byte) (s : State) :
    exec (.rnd x nn) s = .next (s.draw8.2.setReg x (Config.rnd s.draws &&& nn)) := rfl

theorem exec_skp (x : Reg) (s : State) : exec (.skp x) s = .next (s.skipIf (s.keyDown (keyNumber (s.reg x)))) := rfl

theorem exec_sknp (x : Reg) (s : State) : exec (.sknp x) s = .next (s.skipIf (!s.keyDown (keyNumber (s.reg x)))) := rfl

theorem exec_addReg (x y : Reg) (s : State) :
    exec (.addReg x y) s = .next (s.setRegFlag x (s.reg x + s.reg y) (carryOut (s.reg x) (s.reg y))) := rfl

theorem exec_subReg (x y : Reg) (s : State) :
    exec (.subReg x y) s = .next (s.setRegFlag x (s.reg x - s.reg y) (notBorrow (s.reg x) (s.reg y))) := rfl

theorem exec_subnReg (x y : Reg) (s : State) :
    exec (.subnReg x y) s = .next (s.setRegFlag x (s.reg y - s.reg x) (notBorrow (s.reg y) (s.reg x))) := rfl

theorem exec_shrReg (x y : Reg) (s : State) :
    exec (.shrReg x y) s = .next (s.setRegFlag x (s.reg y >>> 1) (shiftedOutRight (s.reg y))) := rfl

theorem exec_shlReg (x y : Reg) (s : State) :
    exec (.shlReg x y) s = .next (s.setRegFlag x (s.reg y <<< 1) (shiftedOutLeft (s.reg y))) := rfl

/-! The stack, case by case. -/

/-- The state after a push of the advanced `pc` with room for it. -/
def State.pushed (s : State) (h : s.sp.val < 16) (target : Word) : State :=
  { s with stack := s.stack.set s.sp.val s.pc h, sp := ⟨s.sp.val + 1, by omega⟩, pc := target }

/-- The state after a pop with an entry to take. -/
def State.popped (s : State) (h : 0 < s.sp.val) : State :=
  { s with sp := ⟨s.sp.val - 1, by omega⟩, pc := s.stack[s.sp.val - 1]'(by omega) }

theorem exec_call_of_room (nnn : Addr) {s : State} (h : s.sp.val < 16) :
    exec (.call nnn) s = .next (s.pushed h (zextAddr nnn)) := by
  rw [exec_call, execCall, State.push, dif_pos h]; rfl

theorem exec_call_of_full (nnn : Addr) {s : State} (h : s.sp.val = 16) :
    exec (.call nnn) s = .next (s.raiseFault .stackOverflow) := by
  rw [exec_call, execCall, (State.push_eq_none_iff s s.pc).2 h]

theorem exec_ret_of_entry {s : State} (h : 0 < s.sp.val) : exec .ret s = .next (s.popped h) := by
  rw [exec_ret, execRet, State.pop, dif_pos h]; rfl

theorem exec_ret_of_empty {s : State} (h : s.sp.val = 0) : exec .ret s = .next (s.raiseFault .stackUnderflow) := by
  rw [exec_ret, execRet, (State.pop_eq_none_iff s).2 h]

/-! The sprite draw, case by case. -/

theorem exec_drw_of_pending (x y : Reg) (n : Fin 16) {s : State} (h : s.isRedrawNeeded = true) :
    exec (.drw x y n) s = .next s.stall := by
  rw [exec_drw, execDrw, if_pos h]

/-- The state after a drawing has been shown and its collision written to `VF`. -/
def State.shown (s : State) (g : Drawing) : State := (s.showDisplay g.display).setReg vf (flagByte g.collision)

theorem exec_drw_of_idle (x y : Reg) (n : Fin 16) {s : State} (h : s.isRedrawNeeded = false) :
    exec (.drw x y n) s = .next (s.shown (s.drawSprite (startColumn (s.reg x)) (startRow (s.reg y)) n.val)) := by
  rw [exec_drw, execDrw, h]; rfl

/-! ## The effect of an instruction -/

/-- The instructions that set `pc` otherwise than by the advance of the fetch, a call and a return apart. -/
def pcWriters : List String :=
  ["JP_NNN", "JP_V0__NNN", "SE_Vx__NN", "SNE_Vx__NN", "SE_Vx__Vy", "SNE_Vx__Vy", "SKP_Vx", "SKNP_Vx", "DRW_Vx__Vy__N", "LD_Vx__K"]

/-- The instructions that write a register (spec/10_state.md R11). -/
def registerWriters : List String :=
  ["LD_Vx__NN", "ADD_Vx__NN", "LD_Vx__Vy", "OR_Vx__Vy", "AND_Vx__Vy", "XOR_Vx__Vy", "ADD_Vx__Vy", "SUB_Vx__Vy", "SHR_Vx__Vy",
    "SUBN_Vx__Vy", "SHL_Vx__Vy", "RND_Vx__NN", "LD_Vx__DT", "LD_Vx__K", "LD_Vx___I", "DRW_Vx__Vy__N"]

/-- A memory reached by writes through the memory port: `FONT` and the canonical form are kept. -/
structure Memory.WrittenFrom (m m' : Memory) : Prop where
  font : m'.font = m.font
  wf : m.wf = true → m'.wf = true

/-- `Effect s i t`: what `exec i` may make of `s` is `t`. Each constructor names the fields that can differ. -/
inductive Effect (s : State) : Instr → State → Prop
  | nothing (w : Word) : Effect s (.nop w) s
  | jump {i : Instr} (target : Word) (h : i.mnemonic ∈ pcWriters) : Effect s i (s.jumpTo target)
  | registers {i : Instr} (v : Vector Byte 16) (h : i.mnemonic ∈ registerWriters) : Effect s i { s with v := v }
  | index {i : Instr} (a : Word) (h : i.mnemonic ∈ ["LD_I__NNN", "ADD_I__Vx", "LD_F__Vx"]) : Effect s i (s.setI a)
  | delay (x : Reg) (b : Byte) : Effect s (.ldDelay x) (s.setDelay b)
  | sound (x : Reg) (b : Byte) : Effect s (.ldSound x) (s.setSound b)
  | clear : Effect s .cls (s.showDisplay blankDisplay)
  | draw (x y : Reg) (n : Fin 16) (g : Drawing) : Effect s (.drw x y n) (s.shown g)
  | random (x : Reg) (nn b : Byte) : Effect s (.rnd x nn) (s.draw8.2.setReg x b)
  | digits (x : Reg) (m : Memory) (h : s.memory.WrittenFrom m) : Effect s (.ldBcd x) { s with memory := m }
  | store (x : Reg) (a : Word) (m : Memory) (h : s.memory.WrittenFrom m) : Effect s (.storeRegs x) { s with i := a, memory := m }
  | load (x : Reg) (a : Word) (v : Vector Byte 16) : Effect s (.loadRegs x) { s with i := a, v := v }
  | push (nnn : Addr) (h : s.sp.val < 16) : Effect s (.call nnn) (s.pushed h (zextAddr nnn))
  | pop (h : 0 < s.sp.val) : Effect s .ret (s.popped h)
  | overflow (nnn : Addr) (h : s.sp.val = 16) : Effect s (.call nnn) (s.raiseFault .stackOverflow)
  | underflow (h : s.sp.val = 0) : Effect s .ret (s.raiseFault .stackUnderflow)

/-- A skip not taken is a jump to where `pc` already is. -/
theorem Effect.skip {s : State} {i : Instr} (c : Bool) (h : i.mnemonic ∈ pcWriters) : Effect s i (s.skipIf c) := by
  cases c with
  | true => exact .jump (s.pc + 2) h
  | false => exact .jump s.pc h

theorem State.memory_storeDigits (s : State) (b : Byte) : s.memory.WrittenFrom (s.storeDigits b).memory :=
  ⟨rfl, fun h => State.memWrite_wf (State.memWrite_wf (State.memWrite_wf h _ _) _ _) _ _⟩

theorem State.memory_storeBlock (s : State) (x : Reg) : s.memory.WrittenFrom (s.storeBlock x).memory :=
  ⟨s.storeList_font _ _, fun h => State.storeList_wf h _ _⟩

theorem execDrw_effect (x y : Reg) (n : Fin 16) (s : State) :
    ∃ t, exec (.drw x y n) s = .next t ∧ Effect s (.drw x y n) t := by
  cases h : s.isRedrawNeeded with
  | true => exact ⟨_, exec_drw_of_pending x y n h, .jump _ (by simp [pcWriters, Instr.mnemonic])⟩
  | false => exact ⟨_, exec_drw_of_idle x y n h, .draw x y n _⟩

theorem execLdKey_effect (x : Reg) (s : State) : ∃ t, exec (.ldKey x) s = .next t ∧ Effect s (.ldKey x) t := by
  rw [exec_ldKey, execLdKey]
  cases s.lowestKey with
  | none => exact ⟨_, rfl, .jump _ (by simp [pcWriters, Instr.mnemonic])⟩
  | some k => exact ⟨_, rfl, .registers _ (by simp [registerWriters, Instr.mnemonic])⟩

theorem execCall_effect (nnn : Addr) (s : State) : ∃ t, exec (.call nnn) s = .next t ∧ Effect s (.call nnn) t := by
  by_cases h : s.sp.val < 16
  · exact ⟨_, exec_call_of_room nnn h, .push nnn h⟩
  · have h16 : s.sp.val = 16 := by omega
    exact ⟨_, exec_call_of_full nnn h16, .overflow nnn h16⟩

theorem execRet_effect (s : State) : ∃ t, exec .ret s = .next t ∧ Effect s .ret t := by
  by_cases h : 0 < s.sp.val
  · exact ⟨_, exec_ret_of_entry h, .pop h⟩
  · have h0 : s.sp.val = 0 := by omega
    exact ⟨_, exec_ret_of_empty h0, .underflow h0⟩

/-- Every instruction has a next state, and it is one of its effects. -/
theorem exec_effect (i : Instr) (s : State) : ∃ t, exec i s = .next t ∧ Effect s i t := by
  cases i with
  | nop w => exact ⟨_, exec_nop w s, .nothing w⟩
  | jp | jpV0 => exact ⟨_, rfl, .jump _ (by simp [pcWriters, Instr.mnemonic])⟩
  | seImm | sneImm | seReg | sneReg | skp | sknp => exact ⟨_, rfl, .skip _ (by simp [pcWriters, Instr.mnemonic])⟩
  | ldImm | addImm | ldReg | orReg | andReg | xorReg | addReg | subReg | shrReg | subnReg | shlReg | ldFromDelay =>
    exact ⟨_, rfl, .registers _ (by simp [registerWriters, Instr.mnemonic])⟩
  | ldI | addI | ldFont => exact ⟨_, rfl, .index _ (by simp [Instr.mnemonic])⟩
  | ldDelay x => exact ⟨_, exec_ldDelay x s, .delay x _⟩
  | ldSound x => exact ⟨_, exec_ldSound x s, .sound x _⟩
  | cls => exact ⟨_, exec_cls s, .clear⟩
  | rnd x nn => exact ⟨_, exec_rnd x nn s, .random x nn _⟩
  | ldBcd x => exact ⟨_, exec_ldBcd x s, .digits x _ (s.memory_storeDigits _)⟩
  | storeRegs x =>
    refine ⟨_, exec_storeRegs x s, ?_⟩
    rw [s.storeBlock_only_i_memory x]
    exact .store x _ _ (s.memory_storeBlock x)
  | loadRegs x =>
    refine ⟨_, exec_loadRegs x s, ?_⟩
    rw [s.loadBlock_only_i_v x]
    exact .load x _ _
  | drw x y n => exact execDrw_effect x y n s
  | ldKey x => exact execLdKey_effect x s
  | call nnn => exact execCall_effect nnn s
  | ret => exact execRet_effect s

theorem effect_of_exec {i : Instr} {s t : State} (h : exec i s = .next t) : Effect s i t := by
  obtain ⟨u, hu, he⟩ := exec_effect i s
  obtain rfl : u = t := Host.Outcome.next.inj (hu.symm.trans h)
  exact he

/-! The frame of each piece of state. -/

section
variable {s t : State} {i : Instr}

theorem Effect.keeps_keyboard (h : Effect s i t) : t.keyboard = s.keyboard := by
  cases h <;> rfl

theorem Effect.memory_writtenFrom (h : Effect s i t) : s.memory.WrittenFrom t.memory := by
  cases h with
  | digits _ _ hm | store _ _ _ hm => exact hm
  | _ => exact ⟨rfl, id⟩

theorem Effect.writes_memory (h : Effect s i t) (hne : t.memory ≠ s.memory) : i.mnemonic ∈ ["LD_B__Vx", "LD__I___Vx"] := by
  cases h with
  | digits | store => simp [Instr.mnemonic]
  | _ => exact absurd rfl hne

theorem Effect.writes_i (h : Effect s i t) (hne : t.i ≠ s.i) :
    i.mnemonic ∈ ["LD_I__NNN", "ADD_I__Vx", "LD_F__Vx", "LD__I___Vx", "LD_Vx___I"] := by
  cases h with
  | index _ hi => exact List.mem_append_left ["LD__I___Vx", "LD_Vx___I"] hi
  | store | load => simp [Instr.mnemonic]
  | _ => exact absurd rfl hne

theorem Effect.writes_stack (h : Effect s i t) (hne : t.stack ≠ s.stack) : i.mnemonic = "CALL_NNN" := by
  cases h with
  | push => rfl
  | _ => exact absurd rfl hne

theorem Effect.writes_sp (h : Effect s i t) (hne : t.sp ≠ s.sp) : i.mnemonic ∈ ["CALL_NNN", "RET"] := by
  cases h with
  | push | pop => simp [Instr.mnemonic]
  | _ => exact absurd rfl hne

/-- Fault entry is a call with 16 entries or a return with none. -/
theorem Effect.enters_fault (h : Effect s i t) (hne : t.fault ≠ s.fault) :
    (∃ nnn, i = .call nnn) ∧ s.sp.val = 16 ∧ t = s.raiseFault .stackOverflow ∨
    i = .ret ∧ s.sp.val = 0 ∧ t = s.raiseFault .stackUnderflow := by
  cases h with
  | overflow nnn hsp => exact .inl ⟨⟨nnn, rfl⟩, hsp, rfl⟩
  | underflow hsp => exact .inr ⟨rfl, hsp, rfl⟩
  | _ => exact absurd rfl hne

theorem Effect.writes_delayTimer (h : Effect s i t) (hne : t.delayTimer ≠ s.delayTimer) : i.mnemonic = "LD_DT__Vx" := by
  cases h with
  | delay => rfl
  | _ => exact absurd rfl hne

theorem Effect.writes_soundTimer (h : Effect s i t) (hne : t.soundTimer ≠ s.soundTimer) : i.mnemonic = "LD_ST__Vx" := by
  cases h with
  | sound => rfl
  | _ => exact absurd rfl hne

theorem Effect.writes_display (h : Effect s i t) (hne : t.display ≠ s.display) : i.mnemonic ∈ ["CLS", "DRW_Vx__Vy__N"] := by
  cases h with
  | clear | draw => simp [Instr.mnemonic]
  | _ => exact absurd rfl hne

theorem Effect.writes_isRedrawNeeded (h : Effect s i t) (hne : t.isRedrawNeeded ≠ s.isRedrawNeeded) :
    i.mnemonic ∈ ["CLS", "DRW_Vx__Vy__N"] ∧ t.isRedrawNeeded = true := by
  cases h with
  | clear | draw => exact ⟨by simp [Instr.mnemonic], rfl⟩
  | _ => exact absurd rfl hne

theorem Effect.writes_draws (h : Effect s i t) (hne : t.draws ≠ s.draws) : i.mnemonic = "RND_Vx__NN" := by
  cases h with
  | random => rfl
  | _ => exact absurd rfl hne

theorem Effect.writes_v (h : Effect s i t) (hne : t.v ≠ s.v) : i.mnemonic ∈ registerWriters := by
  cases h with
  | registers _ hi => exact hi
  | draw | random | load => simp [registerWriters, Instr.mnemonic]
  | _ => exact absurd rfl hne

theorem Effect.writes_pc (h : Effect s i t) (hne : t.pc ≠ s.pc) : i.mnemonic ∈ "CALL_NNN" :: "RET" :: pcWriters := by
  cases h with
  | jump _ hi => exact List.mem_cons_of_mem _ (List.mem_cons_of_mem _ hi)
  | push | pop | overflow | underflow => simp [Instr.mnemonic]
  | _ => exact absurd rfl hne

end

/-! ## The step -/

theorem step_halted {s : State} (h : s.fault ≠ .noFault) : step s = .next s := by
  rw [step, if_pos ((State.halted_iff s).2 h)]

theorem step_total (s : State) : ∃ t, step s = .next t := by
  by_cases h : s.fault = .noFault
  · obtain ⟨t, ht, -⟩ := exec_effect (decode s.fetch) s.advance
    exact ⟨t, (step_running h).trans ht⟩
  · exact ⟨s, step_halted h⟩

theorem effect_of_step {s t : State} (hrun : s.fault = .noFault) (h : step s = .next t) :
    Effect s.advance (decode s.fetch) t :=
  effect_of_exec ((step_running hrun).symm.trans h)

/-- The two ways a step can go: the halt, or an effect of the fetched instruction. -/
theorem step_cases {s t : State} (h : step s = .next t) :
    s.fault ≠ .noFault ∧ t = s ∨ s.fault = .noFault ∧ Effect s.advance (decode s.fetch) t := by
  by_cases hrun : s.fault = .noFault
  · exact .inr ⟨hrun, effect_of_step hrun h⟩
  · exact .inl ⟨hrun, Host.Outcome.next.inj (h.symm.trans (step_halted hrun))⟩

/-! Fault entry. -/

/-- Fault entry in a step: the advance is undone, so the state is the one before the step but for `fault`. -/
theorem step_enters_fault {s t : State} (hrun : s.fault = .noFault) (h : step s = .next t) (hne : t.fault ≠ .noFault) :
    (∃ nnn, decode s.fetch = .call nnn) ∧ s.sp.val = 16 ∧ t = { s with fault := .stackOverflow } ∨
    decode s.fetch = .ret ∧ s.sp.val = 0 ∧ t = { s with fault := .stackUnderflow } := by
  rcases (effect_of_step hrun h).enters_fault (hrun ▸ hne) with ⟨hi, hsp, ht⟩ | ⟨hi, hsp, ht⟩
  · exact .inl ⟨hi, hsp, ht.trans (s.raiseFault_advance _)⟩
  · exact .inr ⟨hi, hsp, ht.trans (s.raiseFault_advance _)⟩

theorem step_call_of_full {s : State} {nnn : Addr} (hrun : s.fault = .noFault) (hi : decode s.fetch = .call nnn)
    (hsp : s.sp.val = 16) : step s = .next { s with fault := .stackOverflow } := by
  rw [step_running hrun, hi, exec_call_of_full nnn (s := s.advance) hsp, State.raiseFault_advance]

theorem step_ret_of_empty {s : State} (hrun : s.fault = .noFault) (hi : decode s.fetch = .ret) (hsp : s.sp.val = 0) :
    step s = .next { s with fault := .stackUnderflow } := by
  rw [step_running hrun, hi, exec_ret_of_empty (s := s.advance) hsp, State.raiseFault_advance]

theorem step_overflow_iff {s t : State} (hrun : s.fault = .noFault) (h : step s = .next t) :
    t.fault = .stackOverflow ↔ (∃ nnn, decode s.fetch = .call nnn) ∧ s.sp.val = 16 := by
  constructor
  · intro hf
    rcases step_enters_fault hrun h (by simp [hf]) with ⟨hi, hsp, -⟩ | ⟨-, -, rfl⟩
    · exact ⟨hi, hsp⟩
    · cases hf
  · rintro ⟨⟨nnn, hi⟩, hsp⟩
    rw [step_call_of_full hrun hi hsp] at h
    rw [← Host.Outcome.next.inj h]

theorem step_underflow_iff {s t : State} (hrun : s.fault = .noFault) (h : step s = .next t) :
    t.fault = .stackUnderflow ↔ decode s.fetch = .ret ∧ s.sp.val = 0 := by
  constructor
  · intro hf
    rcases step_enters_fault hrun h (by simp [hf]) with ⟨-, -, rfl⟩ | ⟨hi, hsp, -⟩
    · cases hf
    · exact ⟨hi, hsp⟩
  · rintro ⟨hi, hsp⟩
    rw [step_ret_of_empty hrun hi hsp] at h
    rw [← Host.Outcome.next.inj h]

theorem step_fault_precise {s t : State} (hrun : s.fault = .noFault) (h : step s = .next t) (hne : t.fault ≠ .noFault) :
    t = { s with fault := t.fault } := by
  rcases step_enters_fault hrun h hne with ⟨-, -, rfl⟩ | ⟨-, -, rfl⟩ <;> rfl

/-! The invariant. -/

theorem faultMatchesStack_of_noFault {s : State} (h : s.fault = .noFault) : faultMatchesStack s = true := by
  rw [faultMatchesStack, h]

theorem step_faultMatchesStack {s t : State} (hrun : s.fault = .noFault) (h : step s = .next t) :
    faultMatchesStack t = true := by
  by_cases hf : t.fault = .noFault
  · exact faultMatchesStack_of_noFault hf
  · rcases step_enters_fault hrun h hf with ⟨-, hsp, rfl⟩ | ⟨-, hsp, rfl⟩ <;> simpa [faultMatchesStack] using hsp

theorem step_inv {s t : State} (hs : s.Inv) (h : step s = .next t) : t.Inv := by
  rcases step_cases h with ⟨-, rfl⟩ | ⟨hrun, he⟩
  · exact hs
  · exact ⟨he.memory_writtenFrom.wf hs.1, step_faultMatchesStack hrun h⟩

/-! ## Runs of events -/

/-- A property that every event of a list keeps is kept by the run of the list. -/
theorem runEvents_keeps {P : State → Prop} {es : List Event}
    (hP : ∀ e ∈ es, ∀ s t, P s → applyEvent e s = .next t → P t) {s t : State} (hs : P s)
    (h : runEvents es s = .next t) : P t := by
  induction es generalizing s with
  | nil => exact Host.Outcome.next.inj h ▸ hs
  | cons e es ih =>
    obtain ⟨u, hu, hr⟩ := runEvents_cons h
    exact ih (fun e' he' => hP e' (List.mem_cons_of_mem e he')) (hP e List.mem_cons_self s u hs hu) hr

/-- What `Load` leaves is the state with its memory written inside the 4096 bytes, or the state itself. -/
theorem loadEvent_frame (bytes : List Byte) (s : State) :
    (loadEvent bytes s).1 = { s with memory := (loadEvent bytes s).1.memory } ∧
      s.memory.WrittenFrom (loadEvent bytes s).1.memory := by
  cases hf : loadFits bytes.length with
  | false => rw [loadEvent_fails hf]; exact ⟨rfl, rfl, id⟩
  | true =>
    obtain ⟨-, hle⟩ := (loadFits_iff _).1 hf
    rw [loadEvent_fits hf]
    exact ⟨rfl, s.memory.writeBytes_font _ _, fun h => Memory.writeBytes_wf h (by rw [progBase]; omega)⟩

theorem applyEvent_inv (e : Event) {s t : State} (hs : s.Inv) (h : applyEvent e s = .next t) : t.Inv := by
  cases e with
  | step => exact step_inv hs h
  | reset => obtain rfl := Host.Outcome.next.inj h; exact ⟨resetWith_memory_wf _ _, rfl⟩
  | load bytes =>
    obtain rfl := Host.Outcome.next.inj h
    obtain ⟨hl, hm⟩ := loadEvent_frame bytes s
    rw [hl]
    exact ⟨hm.wf hs.1, hs.2⟩
  | tick | keyWrite | frameConsumed => obtain rfl := Host.Outcome.next.inj h; exact hs

theorem applyEvent_font (e : Event) {s t : State} (h : applyEvent e s = .next t) : t.memory.font = s.memory.font := by
  cases e with
  | step =>
    rcases step_cases h with ⟨-, rfl⟩ | ⟨-, he⟩
    · rfl
    · exact he.memory_writtenFrom.font
  | load bytes => obtain rfl := Host.Outcome.next.inj h; exact (loadEvent_frame bytes s).2.font
  | reset | tick | keyWrite | frameConsumed => obtain rfl := Host.Outcome.next.inj h; rfl

/-- The state that a halted core keeps until `Reset`: `t` agrees with `s` but for memory, timers, keys and the redraw flag. -/
def Latched (s t : State) : Prop :=
  t = { s with memory := t.memory, delayTimer := t.delayTimer, soundTimer := t.soundTimer, keyboard := t.keyboard,
               isRedrawNeeded := t.isRedrawNeeded }

theorem applyEvent_latched {e : Event} (he : e ≠ .reset) {s t : State} (hs : s.fault ≠ .noFault)
    (h : applyEvent e s = .next t) : Latched s t := by
  cases e with
  | reset => exact absurd rfl he
  | step => obtain rfl := Host.Outcome.next.inj ((step_halted hs).symm.trans h); rfl
  | load bytes =>
    obtain rfl := Host.Outcome.next.inj h
    rw [(loadEvent_frame bytes s).1]; rfl
  | tick | keyWrite | frameConsumed => obtain rfl := Host.Outcome.next.inj h; rfl

theorem Latched.refl (s : State) : Latched s s := rfl

theorem Latched.trans {s t u : State} (hst : Latched s t) (htu : Latched t u) : Latched s u := by
  rw [Latched, htu, hst]

theorem runEvents_latched {es : List Event} (hes : .reset ∉ es) {s t : State} (hs : s.fault ≠ .noFault)
    (h : runEvents es s = .next t) : Latched s t := by
  refine runEvents_keeps (P := Latched s) (fun e he u w hu hw => hu.trans (applyEvent_latched ?_ ?_ hw)) (Latched.refl s) h
  · rintro rfl
    exact hes he
  · rw [hu]; exact hs

end Machine
end Sys2Proof

open Sys2Proof Sys2Proof.Machine Sys2Proof.Claims

/-- Settles O16: a running core's memory is reached through the memory port only, and its faults tell the stack's depth. -/
theorem stepKeepsInvariant : Obligations.StepKeepsInvariant := fun _ _ => step_inv

/-- Settles O18: each of the six events keeps the invariant. -/
theorem runsKeepInvariant : Obligations.RunsKeepInvariant :=
  fun _ _ _ => runEvents_keeps fun e _ _ _ => applyEvent_inv e

/-- Settles O19: one frame lemma per piece of state. -/
theorem onlyListedInstructionsWriteState : Obligations.OnlyListedInstructionsWriteState := by
  intro s t hrun h
  have he := effect_of_step hrun h
  refine ⟨he.writes_memory, he.writes_i, he.writes_stack, he.writes_sp, fun hne => ?_, he.writes_delayTimer, he.writes_soundTimer,
    he.writes_display, he.writes_isRedrawNeeded, he.writes_draws, he.writes_v, he.keeps_keyboard, he.memory_writtenFrom.font⟩
  rcases he.enters_fault hne with ⟨⟨nnn, hi⟩, -⟩ | ⟨hi, -⟩ <;> simp [hi, Instr.mnemonic]

/-- Settles O20: fault entry happens for the two stack errors only, and undoes the advance of `pc`. -/
theorem faultsArePrecise : Obligations.FaultsArePrecise :=
  fun _ _ hrun h => ⟨step_overflow_iff hrun h, step_underflow_iff hrun h, step_fault_precise hrun h⟩

/-- Settles O21: no event but `Reset` reaches more of a halted core than memory, timers, keys and the redraw flag. -/
theorem faultIsLatchedUntilReset : Obligations.FaultIsLatchedUntilReset := by
  intro es s t hs hes h
  rw [runEvents_latched hes hs h]
  exact ⟨rfl, rfl, rfl, rfl, rfl, rfl, rfl, rfl⟩

/-- Settles O10: a halted core answers its own state, a running one an effect of its instruction. -/
theorem everyStepHasASuccessor : Obligations.EveryStepHasASuccessor := step_total

/-- Settles O25: no event writes the parameter. -/
theorem runsKeepFontParameter : Obligations.RunsKeepFontParameter :=
  fun _ s _ => runEvents_keeps (P := fun u => u.memory.font = s.memory.font)
    (fun e _ _ _ hu h => (applyEvent_font e h).trans hu) rfl

/-- Settles O8: two fetched bytes always decode, to the word that `fetch` joins. -/
theorem stepRunsDecodedInstruction : Obligations.StepRunsDecodedInstruction := by
  intro s i hrun hd
  obtain ⟨hi, -⟩ := Prod.mk.inj (Except.ok.inj ((decodeBytes_cons _ _ _).symm.trans hd))
  rw [step_running hrun, ← hi]; rfl

/-- Settles O9: the halt comes before the fetch. -/
theorem haltedStepChangesNothing : Obligations.HaltedStepChangesNothing := fun _ => step_halted

/-- Settles O17: nothing is listed in memory and no fault is latched. -/
theorem resetMeetsInvariant : Obligations.ResetMeetsInvariant := ⟨resetWith_memory_wf _ _, faultMatchesStack_of_noFault rfl⟩
end

section
/-! PROOF. State that instructions do not read (spec/10_state.md section 5): an instruction that neither calls, returns nor loads the
sound timer commutes with any replacement of the stack and the sound timer; the three that are left are taken one by one. -/

namespace Sys2Proof

open Sys2Proof.Machine

namespace Machine

/-- The state with other stack contents and another sound timer. -/
def State.withHidden (s : State) (w : Vector Word 16) (b : Byte) : State := { s with stack := w, soundTimer := b }

/-- An outcome, its next state changed by `f`. -/
def mapNext (f : State → State) : Host.Outcome State Fault Refusal → Host.Outcome State Fault Refusal
  | .next t => .next (f t)
  | .fault r => .fault r
  | .refused r => .refused r

theorem State.skipIf_withHidden (s : State) (w : Vector Word 16) (b : Byte) (c : Bool) :
    (s.withHidden w b).skipIf c = (s.skipIf c).withHidden w b := by
  cases c <;> rfl

theorem State.storeBlock_withHidden (s : State) (w : Vector Word 16) (b : Byte) (x : Reg) :
    (s.withHidden w b).storeBlock x = (s.storeBlock x).withHidden w b := by
  have hlist : (s.withHidden w b).storeList s.i (regsUpTo x) = (s.storeList s.i (regsUpTo x)).withHidden w b :=
    List.foldl_hom (fun t : State => t.withHidden w b) fun _ _ => rfl
  exact congrArg (fun t => State.advanceI t x) hlist

theorem State.loadBlock_withHidden (s : State) (w : Vector Word 16) (b : Byte) (x : Reg) :
    (s.withHidden w b).loadBlock x = (s.loadBlock x).withHidden w b := by
  have hlist : (s.withHidden w b).loadList s.i (regsUpTo x) = (s.loadList s.i (regsUpTo x)).withHidden w b :=
    List.foldl_hom (fun t : State => t.withHidden w b) fun _ _ => rfl
  exact congrArg (fun t => State.advanceI t x) hlist

theorem exec_drw_withHidden (x y : Reg) (n : Fin 16) (s : State) (w : Vector Word 16) (b : Byte) :
    exec (.drw x y n) (s.withHidden w b) = mapNext (·.withHidden w b) (exec (.drw x y n) s) := by
  cases h : s.isRedrawNeeded with
  | true => rw [exec_drw_of_pending x y n h, exec_drw_of_pending x y n (s := s.withHidden w b) h]; rfl
  | false => rw [exec_drw_of_idle x y n h, exec_drw_of_idle x y n (s := s.withHidden w b) h]; rfl

theorem exec_ldKey_withHidden (x : Reg) (s : State) (w : Vector Word 16) (b : Byte) :
    exec (.ldKey x) (s.withHidden w b) = mapNext (·.withHidden w b) (exec (.ldKey x) s) := by
  have hk : (s.withHidden w b).lowestKey = s.lowestKey := rfl
  rw [exec_ldKey, exec_ldKey, execLdKey, execLdKey, hk]
  cases s.lowestKey <;> rfl

/-- The instructions that read the stack or write the sound timer. -/
def touchesHidden : Instr → Bool
  | .call _ | .ret | .ldSound _ => true
  | _ => false

theorem exec_withHidden {i : Instr} (hi : touchesHidden i = false) (s : State) (w : Vector Word 16) (b : Byte) :
    exec i (s.withHidden w b) = mapNext (·.withHidden w b) (exec i s) := by
  cases i with
  | call | ret | ldSound => cases hi
  | seImm | sneImm | seReg | sneReg | skp | sknp => exact congrArg Host.Outcome.next (s.skipIf_withHidden w b _)
  | storeRegs x => exact congrArg Host.Outcome.next (s.storeBlock_withHidden w b x)
  | loadRegs x => exact congrArg Host.Outcome.next (s.loadBlock_withHidden w b x)
  | drw x y n => exact exec_drw_withHidden x y n s w b
  | ldKey x => exact exec_ldKey_withHidden x s w b
  | _ => rfl

section
variable {i : Instr} {s t : State} (hi : touchesHidden i = false)
include hi

theorem exec_next_withHidden (h : exec i s = .next t) (w : Vector Word 16) (b : Byte) :
    exec i (s.withHidden w b) = .next (t.withHidden w b) := by
  rw [exec_withHidden hi, h]; rfl

theorem Effect.keeps_stack (h : Effect s i t) : t.stack = s.stack := by
  cases h with
  | push => cases hi
  | _ => rfl

theorem Effect.keeps_sp (h : Effect s i t) : t.sp = s.sp := by
  cases h with
  | push | pop => cases hi
  | _ => rfl

theorem Effect.keeps_soundTimer (h : Effect s i t) : t.soundTimer = s.soundTimer := by
  cases h with
  | sound => cases hi
  | _ => rfl

end

/-- Two stacks hold the same first `n` entries. -/
def SameEntries (n : Nat) (w w' : Vector Word 16) : Prop := ∀ k : Fin 16, k.val < n → w[k] = w'[k]

theorem SameEntries.set {n : Nat} {w w' : Vector Word 16} (h : SameEntries n w w') (hn : n < 16) (a : Word) :
    SameEntries (n + 1) (w.set n a) (w'.set n a) := by
  intro k hk
  simp only [Fin.getElem_fin, Vector.getElem_set]
  split
  · rfl
  · exact h k (by omega)

/-- `o` answers `t`, but for the sound timer and the stack entries at and above `sp`; where `w` and `b` are the stack and the sound
timer of `s`, it answers their values in `t`. -/
def AnswersButHidden (o : Host.Outcome State Fault Refusal) (s t : State) (w : Vector Word 16) (b : Byte) : Prop :=
  ∃ w' c, o = .next (t.withHidden w' c) ∧ SameEntries t.sp.val w' t.stack ∧ (w = s.stack → w' = t.stack) ∧
    (b = s.soundTimer → c = t.soundTimer)

section
variable {s t : State} {w : Vector Word 16} (hw : SameEntries s.sp.val w s.stack) (b : Byte)
include hw

theorem exec_call_hidden {nnn : Addr} (h : exec (.call nnn) s = .next t) :
    AnswersButHidden (exec (.call nnn) (s.withHidden w b)) s t w b := by
  by_cases hsp : s.sp.val < 16
  · obtain rfl := Host.Outcome.next.inj ((exec_call_of_room nnn hsp).symm.trans h)
    exact ⟨w.set s.sp.val s.pc, b, exec_call_of_room nnn (s := s.withHidden w b) hsp, hw.set hsp s.pc,
      congrArg (Vector.set · s.sp.val s.pc hsp), id⟩
  · have hfull : s.sp.val = 16 := by omega
    obtain rfl := Host.Outcome.next.inj ((exec_call_of_full nnn hfull).symm.trans h)
    exact ⟨w, b, exec_call_of_full nnn (s := s.withHidden w b) hfull, hw, id, id⟩

theorem exec_ret_hidden (h : exec .ret s = .next t) : AnswersButHidden (exec .ret (s.withHidden w b)) s t w b := by
  by_cases hsp : 0 < s.sp.val
  · obtain rfl := Host.Outcome.next.inj ((exec_ret_of_entry hsp).symm.trans h)
    have htop : w[s.sp.val - 1] = s.stack[s.sp.val - 1] := hw ⟨s.sp.val - 1, by omega⟩ (Nat.sub_lt hsp Nat.one_pos)
    have hpop : (s.withHidden w b).popped hsp = (s.popped hsp).withHidden w b := by
      simp only [State.popped, State.withHidden, htop]
    exact ⟨w, b, (exec_ret_of_entry (s := s.withHidden w b) hsp).trans (congrArg _ hpop),
      fun k hk => hw k (Nat.lt_of_lt_of_le hk (Nat.sub_le _ _)), id, id⟩
  · have hempty : s.sp.val = 0 := by omega
    obtain rfl := Host.Outcome.next.inj ((exec_ret_of_empty hempty).symm.trans h)
    exact ⟨w, b, exec_ret_of_empty (s := s.withHidden w b) hempty, hw, id, id⟩

theorem exec_hidden {i : Instr} (h : exec i s = .next t) : AnswersButHidden (exec i (s.withHidden w b)) s t w b := by
  cases hi : touchesHidden i with
  | false =>
    have he := effect_of_exec h
    refine ⟨w, b, exec_next_withHidden hi h w b, ?_, (he.keeps_stack hi).symm ▸ id, (he.keeps_soundTimer hi).symm ▸ id⟩
    rwa [he.keeps_sp hi, he.keeps_stack hi]
  | true =>
    cases i with
    | call nnn => exact exec_call_hidden hw b h
    | ret => exact exec_ret_hidden hw b h
    | ldSound x =>
      obtain rfl := Host.Outcome.next.inj h
      exact ⟨w, s.reg x, rfl, hw, id, fun _ => rfl⟩
    | _ => cases hi

theorem step_hidden (h : step s = .next t) : AnswersButHidden (step (s.withHidden w b)) s t w b := by
  by_cases hrun : s.fault = .noFault
  · rw [step_running hrun] at h
    rw [step_running (s := s.withHidden w b) hrun]
    exact exec_hidden (s := s.advance) hw b h
  · obtain rfl := Host.Outcome.next.inj ((step_halted hrun).symm.trans h)
    exact ⟨w, b, step_halted (s := s.withHidden w b) hrun, hw, id, id⟩

end

end Machine
end Sys2Proof

open Sys2Proof Sys2Proof.Machine

/-- Settles O22: a load of the sound timer overwrites it, and every other instruction passes it on unread. -/
theorem soundTimerIsNeverRead : Obligations.SoundTimerIsNeverRead := by
  intro s t b h
  obtain ⟨w', c, hstep, -, hstack, -⟩ := step_hidden (w := s.stack) (fun _ _ => rfl) b h
  obtain rfl := hstack rfl
  exact ⟨_, hstep, c, rfl⟩

/-- Settles O23: a return reads the entry below `sp`, a call writes the entry at `sp`, and no other instruction reaches the stack. -/
theorem deadStackEntriesAreNeverRead : Obligations.DeadStackEntriesAreNeverRead := by
  intro s t w hw h
  obtain ⟨w', c, hstep, hsame, -, hsound⟩ := step_hidden hw s.soundTimer h
  obtain rfl := hsound rfl
  exact ⟨_, hstep, rfl, hsame⟩
end

section
/-! PROOF. The step cycle (spec/40_step_cycle.md R70 to R73): `pc` after a step, the steps that leave the state as it was, and which
word a step runs after a word is placed or an image loaded. -/

namespace Sys2Proof

open Sys2Proof.Machine Sys2Proof.Claims

namespace Machine

theorem keyNumber_eq {k : Key} {b : Byte} (h : k.val = b.toNat % 16) : keyNumber b = k :=
  Fin.ext ((keyNumber_val b).trans h.symm)

/-! ## `pc` after a step -/

theorem State.pc_skipIf_advance (s : State) (c : Bool) :
    (s.advance.skipIf c).pc = if c = true then s.pc + 4 else s.pc + 2 := by
  have h4 : s.pc + 2 + 2 = s.pc + 4 := BitVec.add_assoc s.pc 2 2
  rw [State.skipIf_pc, State.advance_pc, h4]

theorem State.pc_stall_advance (s : State) : s.advance.stall.pc = s.pc := by rw [State.stall_advance]

theorem State.pc_raiseFault_advance (s : State) (c : FaultCode) : (s.advance.raiseFault c).pc = s.pc := by
  rw [State.raiseFault_advance]

section
variable {s t : State}

theorem pcRule_call {nnn : Addr} (h : exec (.call nnn) s.advance = .next t) : PcRule (.call nnn) s t.pc := by
  rcases execCall_cases h with ⟨hsp, rfl⟩ | ⟨hsp, rfl⟩
  · exact (if_pos hsp).mpr (s.pc_raiseFault_advance _)
  · exact (if_neg hsp.ne).mpr (zextAddr_toNat nnn)

theorem pcRule_ret (h : exec .ret s.advance = .next t) : PcRule .ret s t.pc := by
  rcases execRet_cases h with ⟨hsp, rfl⟩ | ⟨hsp, rfl⟩
  · exact ⟨fun _ => s.pc_raiseFault_advance _, fun k hk => absurd (hk.trans hsp) (Nat.succ_ne_zero _)⟩
  · refine ⟨fun h0 => absurd h0 hsp.ne', fun k hk => ?_⟩
    have hk' : s.sp.val - 1 = k.val := by omega
    simp [hk']

theorem pcRule_drw {x y : Reg} {n : Fin 16} (h : exec (.drw x y n) s.advance = .next t) : PcRule (.drw x y n) s t.pc := by
  rcases execDrw_cases h with ⟨hp, rfl⟩ | ⟨hp, g, -, rfl⟩
  · exact (s.pc_stall_advance).trans (if_pos hp).symm
  · exact (if_neg (Bool.eq_false_iff.1 hp)).symm

theorem pcRule_ldKey {x : Reg} (h : exec (.ldKey x) s.advance = .next t) : PcRule (.ldKey x) s t.pc := by
  rcases execLdKey_cases h with ⟨hk, rfl⟩ | ⟨k, hk, -, rfl⟩
  · exact (s.pc_stall_advance).trans (if_neg (by simpa using hk)).symm
  · exact (if_pos ⟨k, hk⟩).symm

theorem pcRule_of_exec {i : Instr} (h : exec i s.advance = .next t) : PcRule i s t.pc := by
  cases i with
  | jp nnn => obtain rfl := Host.Outcome.next.inj h; exact zextAddr_toNat nnn
  | jpV0 nnn => obtain rfl := Host.Outcome.next.inj h; exact zextByte_add_zextAddr_toNat _ nnn
  | call nnn => exact pcRule_call h
  | ret => exact pcRule_ret h
  | drw x y n => exact pcRule_drw h
  | ldKey x => exact pcRule_ldKey h
  | seImm | sneImm | seReg | sneReg =>
    obtain rfl := Host.Outcome.next.inj h
    refine (s.pc_skipIf_advance _).trans ?_
    simp
  | skp x =>
    obtain rfl := Host.Outcome.next.inj h
    intro k hk
    rw [State.pc_skipIf_advance, State.advance_reg, keyNumber_eq hk, State.advance_keyDown]
  | sknp x =>
    obtain rfl := Host.Outcome.next.inj h
    intro k hk
    rw [State.pc_skipIf_advance, State.advance_reg, keyNumber_eq hk, State.advance_keyDown]
    cases s.keyDown k <;> rfl
  | _ =>
    refine by_contra fun hne => ?_
    have := (effect_of_exec h).writes_pc hne
    simp [pcWriters, Instr.mnemonic] at this

end

/-! ## Steps that leave the state as it was -/

theorem stalls_iff (i : Instr) (s : State) :
    stalls i s = true ↔
      (∃ x y n, i = .drw x y n) ∧ s.isRedrawNeeded = true ∨ (∃ x, i = .ldKey x) ∧ ∀ k, s.keyDown k = false := by
  cases i <;> simp [stalls]

theorem zextAddr_eq_iff (nnn : Addr) (p : Word) : zextAddr nnn = p ↔ p.toNat = nnn.toNat := by
  rw [← BitVec.toNat_inj, zextAddr_toNat, eq_comm]

theorem endOfRun_iff {s : State} (hrun : s.fault = .noFault) :
    endOfRun s = true ↔ ∃ nnn, decode s.fetch = .jp nnn ∧ s.pc.toNat = nnn.toNat := by
  rw [endOfRun, (State.halted_eq_false_iff s).2 hrun]
  cases decode s.fetch with
  | jp nnn => simp [zextAddr_eq_iff]
  | _ => simp

theorem step_stalled {s : State} (hrun : s.fault = .noFault) (h : stalls (decode s.fetch) s = true) : step s = .next s := by
  rw [step_running hrun]
  rcases (stalls_iff _ s).1 h with ⟨⟨x, y, n, hi⟩, hp⟩ | ⟨⟨x, hi⟩, hk⟩
  · rw [hi, exec_drw_of_pending x y n (s := s.advance) hp, State.stall_advance]
  · rw [hi, exec_ldKey, execLdKey_of_no_key x (s := s.advance) hk, State.stall_advance]

theorem step_jpV0_self {s : State} {nnn : Addr} (hrun : s.fault = .noFault) (hi : decode s.fetch = .jpV0 nnn)
    (hpc : (s.reg 0).toNat + nnn.toNat = s.pc.toNat) : step s = .next s := by
  have ha : zextByte (s.reg 0) + zextAddr nnn = s.pc := BitVec.eq_of_toNat_eq ((zextByte_add_zextAddr_toNat _ nnn).trans hpc)
  rw [step_running hrun, hi, exec_jpV0, State.advance_reg, ha, State.advance_jumpTo_self]

theorem pc_ne_add_two (p : Word) : p ≠ p + 2 := by bv_omega

theorem pc_ne_add_four (p : Word) : p ≠ p + 4 := by bv_omega

theorem pc_ne_skip (p : Word) (c : Prop) [Decidable c] : p ≠ if c then p + 4 else p + 2 := by
  split
  · exact pc_ne_add_four p
  · exact pc_ne_add_two p

theorem pc_ne_skip_unless (p : Word) (c : Prop) [Decidable c] : p ≠ if c then p + 2 else p + 4 := by
  split
  · exact pc_ne_add_two p
  · exact pc_ne_add_four p

theorem exec_call_ne_self {nnn : Addr} {s : State} (hrun : s.fault = .noFault) : exec (.call nnn) s.advance ≠ .next s := by
  intro h
  rcases execCall_cases h with ⟨-, hs⟩ | ⟨_, hs⟩
  · exact nomatch (hrun.symm.trans (congrArg State.fault hs) : FaultCode.noFault = .stackOverflow)
  · exact absurd (congrArg (fun u => u.sp.val) hs) (Nat.succ_ne_self s.sp.val).symm

theorem exec_ret_ne_self {s : State} (hrun : s.fault = .noFault) : exec .ret s.advance ≠ .next s := by
  intro h
  rcases execRet_cases h with ⟨-, hs⟩ | ⟨hsp, hs⟩
  · exact nomatch (hrun.symm.trans (congrArg State.fault hs) : FaultCode.noFault = .stackUnderflow)
  · exact absurd (congrArg (fun u => u.sp.val) hs) (Nat.sub_lt hsp Nat.one_pos).ne'

/-- An instruction that gives the state before the fetch back waits, or jumps to its own address. -/
theorem waits_or_jumps_of_exec_self {s : State} {i : Instr} (hrun : s.fault = .noFault) (h : exec i s.advance = .next s) :
    stalls i s = true ∨ (∃ nnn, i = .jp nnn ∧ s.pc.toNat = nnn.toNat) ∨
      ∃ nnn, i = .jpV0 nnn ∧ (s.reg 0).toNat + nnn.toNat = s.pc.toNat := by
  have hpc := pcRule_of_exec h
  cases i with
  | jp nnn => exact .inr (.inl ⟨nnn, rfl, hpc⟩)
  | jpV0 nnn => exact .inr (.inr ⟨nnn, rfl, hpc.symm⟩)
  | call nnn => exact absurd h (exec_call_ne_self hrun)
  | ret => exact absurd h (exec_ret_ne_self hrun)
  | drw x y n =>
    refine .inl (by_contra fun hp => ?_)
    exact pc_ne_add_two s.pc (hpc.trans (if_neg hp))
  | ldKey x =>
    refine .inl ((stalls_iff _ s).2 (.inr ⟨⟨x, rfl⟩, fun k => Bool.eq_false_iff.2 fun hk => ?_⟩))
    exact pc_ne_add_two s.pc (hpc.trans (if_pos ⟨k, hk⟩))
  | seImm | seReg => exact absurd hpc (pc_ne_skip _ _)
  | sneImm | sneReg => exact absurd hpc (pc_ne_skip_unless _ _)
  | skp => exact absurd (hpc _ (keyNumber_val _)) (pc_ne_skip _ _)
  | sknp => exact absurd (hpc _ (keyNumber_val _)) (pc_ne_skip_unless _ _)
  | _ => exact absurd hpc (pc_ne_add_two s.pc)

theorem step_eq_self_iff {s : State} (hrun : s.fault = .noFault) :
    step s = .next s ↔ stalls (decode s.fetch) s = true ∨ endOfRun s = true ∨
      ∃ nnn, decode s.fetch = .jpV0 nnn ∧ (s.reg 0).toNat + nnn.toNat = s.pc.toNat := by
  rw [endOfRun_iff hrun]
  constructor
  · exact fun h => waits_or_jumps_of_exec_self hrun ((step_running hrun).symm.trans h)
  · rintro (h | ⟨nnn, hi, hpc⟩ | ⟨nnn, hi, hpc⟩)
    · exact step_stalled hrun h
    · exact step_jp_self hrun hi hpc
    · exact step_jpV0_self hrun hi hpc

/-! ## The word that a step runs -/

theorem tableWord_sixteen (w : Nat) : tableWord 16 w = BitVec.ofNat 16 w := by
  apply BitVec.eq_of_toNat_eq
  rw [tableWord, BitVec.toNat_ofNat, BitVec.toNat_ofNat, Nat.mod_mod]

theorem step_withFetchWord {s : State} (hrun : s.fault = .noFault) (w : Nat) :
    step (s.withFetchWord 16 w) = exec (decode (BitVec.ofNat 16 w)) { s.withFetchWord 16 w with pc := s.pc + 2 } := by
  rw [step_running (s := s.withFetchWord 16 w) hrun, State.withFetchWord, State.fetch_placeWord, tableWord_sixteen]
  rfl

/-- The state after `Reset` and a `Load` that succeeds. -/
def State.loaded (s : State) (bytes : List Byte) : State :=
  { resetEvent s with memory := (resetEvent s).memory.writeBytes progBase bytes }

theorem runEvents_reset_load {bytes : List Byte} (h : loadFits bytes.length = true) (es : List Event) (s : State) :
    runEvents (.reset :: .load bytes :: es) s = runEvents es (s.loaded bytes) := by
  simp only [runEvents, applyEvent, loadEvent_fits h]; rfl

theorem State.fetch_loaded (s : State) (hi lo : Byte) (rest : List Byte) :
    (s.loaded (hi :: lo :: rest)).fetch = joinBytes hi lo := by
  have hhi : (s.loaded (hi :: lo :: rest)).memRead 0x200 = hi := by
    simp [State.memRead, State.loaded, Memory.read_writeBytes, maskAddr, progBase]
  have hlo : (s.loaded (hi :: lo :: rest)).memRead 0x201 = lo := by
    simp [State.memRead, State.loaded, Memory.read_writeBytes, maskAddr, progBase]
  exact congrArg₂ joinBytes hhi hlo

/-- A running core executes the word it fetches on the state with `pc` advanced. -/
theorem runEvents_step {s : State} (hrun : s.fault = .noFault) :
    runEvents [.step] s = exec (decode s.fetch) s.advance := by
  obtain ⟨t, ht⟩ := step_total s
  rw [← step_running hrun, runEvents, applyEvent, ht]; rfl

/-! ## A call and the return after it -/

theorem call_then_return {nnn : Addr} {s : State} (hrun : s.fault = .noFault) (hsp : s.sp.val < 16)
    (hcall : decode s.fetch = .call nnn) (hret : decode (s.memReadWord (zextAddr nnn)) = .ret) :
    ∃ t u, step s = .next t ∧ step t = .next u ∧ u.pc = s.pc + 2 ∧ u.sp = s.sp ∧ u.fault = .noFault := by
  have hpos : 0 < (s.advance.pushed hsp (zextAddr nnn)).advance.sp.val := Nat.succ_pos _
  refine ⟨s.advance.pushed hsp (zextAddr nnn), (s.advance.pushed hsp (zextAddr nnn)).advance.popped hpos, ?_, ?_, ?_, ?_, hrun⟩
  · rw [step_running hrun, hcall, exec_call_of_room nnn (s := s.advance) hsp]
  · rw [step_running (s := s.advance.pushed hsp (zextAddr nnn)) hrun]
    have hf : (s.advance.pushed hsp (zextAddr nnn)).fetch = s.memReadWord (zextAddr nnn) := rfl
    rw [hf, hret, exec_ret_of_entry hpos]
  · simp [State.popped, State.pushed]
  · simp [State.popped, State.pushed]

end Machine
end Sys2Proof

open Sys2Proof Sys2Proof.Machine Sys2Proof.Claims

/-- Settles O11: each row of the table from its instruction's arm; every other instruction leaves the advanced `pc`. -/
theorem pcAfterStepFollowsTable : Obligations.PcAfterStepFollowsTable :=
  fun _ _ hrun h => pcRule_of_exec ((step_running hrun).symm.trans h)

/-- Settles O12: a stall puts the advanced `pc` back. -/
theorem stalledStepIsIdentity : Obligations.StalledStepIsIdentity :=
  fun s hrun h => step_stalled hrun ((stalls_iff _ s).2 h)

/-- Settles O13: an instruction that does not wait moves `pc`, unless it jumps to its own address. -/
theorem onlyWaitsAndSelfJumpsRepeat : Obligations.OnlyWaitsAndSelfJumpsRepeat := fun _ => step_eq_self_iff

/-- Settles O14: the placed word is the one fetched. -/
theorem placedWordRunsNext : Obligations.PlacedWordRunsNext := fun _ w hrun => step_withFetchWord hrun w

/-- Settles O15: the loaded image's first two bytes are fetched at 0x0200. -/
theorem firstStepAfterLoadRunsImage : Obligations.FirstStepAfterLoadRunsImage := by
  intro s hi lo rest hlen
  have hfits : loadFits (hi :: lo :: rest).length = true :=
    (loadFits_iff _).2 ⟨Nat.succ_pos _, Nat.succ_le_succ (Nat.succ_le_succ hlen)⟩
  refine ⟨s.loaded (hi :: lo :: rest), runEvents_reset_load hfits [] s, rfl, ?_⟩
  rw [runEvents_reset_load hfits [.step] s, runEvents_step rfl, State.fetch_loaded]
  rfl

/-- Settles O35: the push with room for it. -/
theorem callPushesReturnAddress : Obligations.CallPushesReturnAddress := by
  intro nnn s hsp
  refine ⟨_, exec_call_of_room nnn hsp, zextAddr_toNat nnn, rfl, fun k hk => ?_, fun k hk => ?_, rfl⟩
  · simp [State.pushed, hk]
  · simp [State.pushed, Ne.symm hk]

/-- Settles O36: the pop with an entry to take. -/
theorem returnPopsIntoPc : Obligations.ReturnPopsIntoPc := by
  intro s hsp
  refine ⟨_, exec_ret_of_entry hsp, fun k hk => ?_, Nat.sub_add_cancel hsp, rfl⟩
  have hk' : s.sp.val - 1 = k.val := by omega
  simp [State.popped, hk']

/-- Settles O37: the full stack refuses the push and the empty one the pop. -/
theorem stackErrorsEnterFault : Obligations.StackErrorsEnterFault :=
  ⟨fun nnn _ hsp => exec_call_of_full nnn hsp, fun _ hsp => exec_ret_of_empty hsp⟩

/-- Settles O38: the return pops the entry that the call pushed. -/
theorem callThenReturnComesBack : Obligations.CallThenReturnComesBack :=
  fun _ _ hrun hsp hcall hret => call_then_return hrun hsp hcall hret
end

section
/-! PROOF. Single instructions: arithmetic with its flag (spec/42_load_and_alu.md R96 to R100), the addition to `i` and a block store
seen by a block load and by the next fetch (spec/43_index_and_memory.md, spec/20_memory.md section 7), the key skips and the random
byte (spec/45_keys_timers_random.md). -/

namespace Sys2Proof

open Sys2Proof.Machine Sys2Proof.Claims

namespace Machine

/-! Arithmetic with its flag. -/

theorem carryOut_iff (a b : Byte) : carryOut a b = true ↔ a.toNat + b.toNat > 255 := decide_eq_true_iff

theorem notBorrow_iff (a b : Byte) : notBorrow a b = true ↔ a.toNat ≥ b.toNat := decide_eq_true_iff

theorem sub_toNat (a b : Byte) : (a - b).toNat = (a.toNat + 256 - b.toNat) % 256 := by
  have := b.isLt
  rw [BitVec.toNat_sub]; omega

theorem shiftedOutRight_toNat (b : Byte) : (flagByte (shiftedOutRight b)).toNat = b.toNat % 2 := by
  rw [flagByte_toNat, shiftedOutRight, BitVec.getLsbD, Nat.testBit_zero]
  rcases Nat.mod_two_eq_zero_or_one b.toNat with h | h <;> simp [h]

theorem shiftedOutLeft_toNat (b : Byte) : (flagByte (shiftedOutLeft b)).toNat = b.toNat / 128 := by
  have hb := b.isLt
  rw [flagByte_toNat, shiftedOutLeft, BitVec.getLsbD, Nat.testBit_eq_decide_div_mod_eq]
  have h7 : b.toNat / 128 = 0 ∨ b.toNat / 128 = 1 := by omega
  rcases h7 with h | h <;> simp [h]

theorem ushiftRight_one_toNat (b : Byte) : (b >>> 1).toNat = b.toNat / 2 := by
  rw [BitVec.toNat_ushiftRight, Nat.shiftRight_eq_div_pow]

theorem shiftLeft_one_toNat (b : Byte) : (b <<< 1).toNat = b.toNat * 2 % 256 := by
  rw [BitVec.toNat_shiftLeft, Nat.shiftLeft_eq]

/-- A flag byte in `VF` tells what the flag tells. -/
theorem flagIs_of_reg_vf {t : State} {flag : Bool} {p : Prop} (hvf : t.reg vf = flagByte flag) (hp : flag = true ↔ p) :
    FlagIs t p := by
  rw [FlagIs, hvf]
  refine ⟨fun h => (flagByte_eq_one flag).2 (hp.2 h), fun h => ?_⟩
  rw [Bool.eq_false_iff.2 (mt hp.1 h)]; rfl

theorem flagIs_setRegFlag (s : State) (x : Reg) (b : Byte) {flag : Bool} {p : Prop} (hp : flag = true ↔ p) :
    FlagIs (s.setRegFlag x b flag) p :=
  flagIs_of_reg_vf (s.reg_setRegFlag_vf x b flag) hp

/-- An outcome that writes the byte `b` to a register and a flag to `VF`, in terms of the number that `b` is and of what the flag
tells. -/
theorem setRegFlag_outcome {o : Host.Outcome State Fault Refusal} {s : State} {x : Reg} {b : Byte} {flag : Bool}
    (ho : o = .next (s.setRegFlag x b flag)) {n : Nat} (hb : b.toNat = n) {q : State → Prop} (hq : q (s.setRegFlag x b flag)) :
    ∃ t, o = .next t ∧ OnlyRegs [x, vf] s t ∧ (x ≠ vf → (t.reg x).toNat = n) ∧ q t := by
  refine ⟨_, ho, onlyRegs_setRegFlag s x b flag, fun hx => ?_, hq⟩
  rw [s.reg_setRegFlag_same b flag hx, hb]

/-! Block transfer. -/

theorem State.storeBlock_i (s : State) (x : Reg) : (s.storeBlock x).i = s.i + BitVec.ofNat 16 (x.val + 1) := by
  rw [State.storeBlock, State.advanceI_i, s.storeList_only_memory]

theorem State.loadBlock_i (s : State) (x : Reg) : (s.loadBlock x).i = s.i + BitVec.ofNat 16 (x.val + 1) := by
  rw [State.loadBlock, State.advanceI_i, s.loadList_only_v]

/-- What a block store has left at `a`, if `a` is, masked, the address of register `k`. -/
theorem State.memRead_storeBlock (s : State) {x k : Reg} (hk : k ≤ x) {a : Word}
    (ha : a.toNat % 4096 = (s.i.toNat + k.val) % 65536 % 4096) : (s.storeBlock x).memRead a = s.reg k := by
  rw [State.memRead, maskAddr, ha]
  exact s.read_storeBlock_same hk

theorem succ_maskAddr_eq {p : Word} {n k : Nat} (h : p.toNat % 4096 = (n + k) % 65536 % 4096) :
    (p + 1).toNat % 4096 = (n + (k + 1)) % 65536 % 4096 := by
  have h1 : (p + 1).toNat = (p.toNat + 1) % 65536 := BitVec.toNat_add p 1
  omega

theorem State.fetch_storeBlock (s : State) {x k j : Reg} (hj : j.val = k.val + 1) (hjx : j ≤ x)
    (hpc : (s.storeBlock x).pc.toNat % 4096 = (s.i.toNat + k.val) % 65536 % 4096) :
    (s.storeBlock x).fetch = joinBytes (s.reg k) (s.reg j) := by
  have hkx : k ≤ x := Fin.le_def.2 (by have := Fin.le_def.1 hjx; omega)
  have hlo := s.memRead_storeBlock hjx (a := (s.storeBlock x).pc + 1) (hj ▸ succ_maskAddr_eq hpc)
  exact congrArg₂ joinBytes (s.memRead_storeBlock hkx hpc) hlo

/-! The random byte. -/

theorem State.random_only_v_draws (s : State) (x : Reg) (b : Byte) :
    s.draw8.2.setReg x b = { s with v := (s.draw8.2.setReg x b).v, draws := s.draws + 1 } := rfl

end Machine
end Sys2Proof

open Sys2Proof Sys2Proof.Machine Sys2Proof.Claims

/-- Settles O43: the sum and the differences of 8-bit vectors, and the flags as comparisons of numbers. -/
theorem addAndSubtractSetVf : Obligations.AddAndSubtractSetVf :=
  ⟨rowIs_addReg, rowIs_subReg, rowIs_subnReg,
    fun x y s => setRegFlag_outcome (exec_addReg x y s) (BitVec.toNat_add _ _) (flagIs_setRegFlag s x _ (carryOut_iff _ _)),
    fun x y s => setRegFlag_outcome (exec_subReg x y s) (sub_toNat _ _) (flagIs_setRegFlag s x _ (notBorrow_iff _ _)),
    fun x y s => setRegFlag_outcome (exec_subnReg x y s) (sub_toNat _ _) (flagIs_setRegFlag s x _ (notBorrow_iff _ _))⟩

/-- Settles O44: half and double of `v[Y]`, and the bit shifted out as its lowest and its highest. -/
theorem shiftsTakeVy : Obligations.ShiftsTakeVy := by
  refine ⟨rowIs_shrReg, rowIs_shlReg, fun x y s => ?_, fun x y s => ?_⟩
  · refine setRegFlag_outcome (q := fun t => (t.reg vf).toNat = _) (exec_shrReg x y s) (ushiftRight_one_toNat _) ?_
    rw [State.reg_setRegFlag_vf, shiftedOutRight_toNat]
  · refine setRegFlag_outcome (q := fun t => (t.reg vf).toNat = _) (exec_shlReg x y s) (shiftLeft_one_toNat _) ?_
    rw [State.reg_setRegFlag_vf, shiftedOutLeft_toNat]

/-- Settles O46: a sum of 16-bit vectors written to `i`. -/
theorem indexAddWrapsAtSixteenBits : Obligations.IndexAddWrapsAtSixteenBits := by
  refine fun x s => ⟨_, exec_addI x s, ?_, s.setI_only_i _⟩
  rw [State.setI_i, BitVec.toNat_add, zextByte_toNat]

/-- Settles O53: the stall. -/
theorem drawWaitsForRenderer : Obligations.DrawWaitsForRenderer := fun x y n _ hp => exec_drw_of_pending x y n hp

/-- Settles O55: two skips on one key, whose number is `v[X]` modulo 16. -/
theorem keySkipsTestOneKey : Obligations.KeySkipsTestOneKey := by
  refine ⟨fun x k s hk => ?_, fun x k s hk => ?_⟩
  · rw [exec_skp, keyNumber_eq hk]
    exact skipIf_outcome rfl id id
  · rw [exec_sknp, keyNumber_eq hk]
    exact skipIf_outcome rfl (fun h => by rw [h]; rfl) (fun h => by rw [h]; rfl)

/-- Settles O58: one draw is consumed and its conjunction with the mask written to one register. -/
theorem randomByteIsMasked : Obligations.RandomByteIsMasked := by
  refine fun x nn s => ⟨_, exec_rnd x nn s, rfl, fun k _ => ?_, fun h0 => ?_, fun j hj => ?_, s.random_only_v_draws x _⟩
  · rw [State.reg_setReg_same, BitVec.getLsbD_and]
  · rw [State.reg_setReg_same, h0]; exact BitVec.and_zero
  · rw [State.reg_setReg_other _ _ hj, State.draw8_reg]

/-- Settles O50: the block load reads the bytes that the block store wrote, at the same `i`. -/
theorem storeThenLoadRestoresRegisters : Obligations.StoreThenLoadRestoresRegisters := by
  intro x s t u w hst hlu
  obtain rfl := Host.Outcome.next.inj ((exec_storeRegs x s).symm.trans hst)
  obtain rfl := Host.Outcome.next.inj ((exec_loadRegs x _).symm.trans hlu)
  refine ⟨fun k hk => ?_, s.storeBlock_i x, (State.loadBlock_i _ x).trans (s.storeBlock_i x).symm⟩
  rw [State.reg_loadBlock, if_pos hk]
  exact s.read_storeBlock_same hk

/-- Settles O24: two neighbouring registers are stored at neighbouring addresses, also under the mask. -/
theorem fetchSeesPrecedingStore : Obligations.FetchSeesPrecedingStore := by
  intro x k j s t hrun hi h hj hjx hpc
  rw [step_running hrun, hi, exec_storeRegs] at h
  obtain rfl := Host.Outcome.next.inj h
  exact s.advance.fetch_storeBlock hj hjx hpc
end

section
/-! PROOF. The sprite draw (spec/44_display.md R116 to R119): the cells that the drawing toggles are the cells a set sprite bit falls
on, so a draw is one exclusive-or of the display, and the same draw again undoes it. -/

namespace Sys2Proof

open Sys2Proof.Machine Sys2Proof.Claims

namespace Machine

theorem spriteHit_iff (s : State) (x0 y0 n : Nat) (px : Fin 64) (py : Fin 32) :
    spriteHit s.spriteRow x0 y0 n px py = true ↔ Covers s x0 y0 n px.val py.val := by
  simp only [spriteHit, rowHit, Bool.and_eq_true, decide_eq_true_eq, true_and]
  constructor
  · rintro ⟨hy, hr, hx, hc, hbit⟩
    exact ⟨py.val - y0, px.val - x0, hr, hc, by omega, by omega, hbit⟩
  · rintro ⟨r, c, hr, hc, hx, hy, hbit⟩
    obtain rfl : py.val - y0 = r := by omega
    obtain rfl : px.val - x0 = c := by omega
    exact ⟨by omega, hr, by omega, hc, hbit⟩

/-- The cells that the sprite of `DXYN` covers in the state `s`. -/
def State.drawHit (s : State) (x y : Reg) (n : Fin 16) : Fin 64 → Fin 32 → Bool :=
  spriteHit s.spriteRow (startColumn (s.reg x)) (startRow (s.reg y)) n.val

theorem State.drawHit_iff (s : State) (x y : Reg) (n : Fin 16) (px : Fin 64) (py : Fin 32) :
    s.drawHit x y n px py = true ↔
      Covers s ((s.reg x).toNat % 64) ((s.reg y).toNat % 32) n.val px.val py.val :=
  spriteHit_iff s _ _ _ px py

/-- A draw with no redraw pending shows the display with the covered cells toggled. -/
theorem exec_drw_shows (x y : Reg) (n : Fin 16) {s : State} (h : s.isRedrawNeeded = false) :
    ∃ g : Drawing, exec (.drw x y n) s = .next (s.shown g) ∧ g.Shows s.display (s.drawHit x y n) :=
  ⟨_, exec_drw_of_idle x y n h, State.drawSprite_shows s _ _ _⟩

theorem State.shown_only (s : State) (g : Drawing) :
    s.shown g = { s with v := (s.shown g).v, display := g.display, isRedrawNeeded := true } := rfl

theorem State.reg_shown_other (s : State) (g : Drawing) {k : Reg} (hk : k ≠ vf) : (s.shown g).reg k = s.reg k :=
  State.reg_setReg_other _ _ hk

theorem flagIs_shown (s : State) {g : Drawing} {p : Prop} (hp : g.collision = true ↔ p) : FlagIs (s.shown g) p :=
  flagIs_of_reg_vf (State.reg_setReg_same _ _ _) hp

/-- The second draw covers the cells of the first one: memory, `i` and the two coordinates are as they were. -/
theorem State.drawHit_shown (s : State) (g : Drawing) {x y : Reg} (hx : x ≠ vf) (hy : y ≠ vf) (n : Fin 16) :
    (frameConsumedEvent (s.shown g)).drawHit x y n = s.drawHit x y n := by
  have hrx : (frameConsumedEvent (s.shown g)).reg x = s.reg x := s.reg_shown_other g hx
  have hry : (frameConsumedEvent (s.shown g)).reg y = s.reg y := s.reg_shown_other g hy
  rw [State.drawHit, hrx, hry]; rfl

/-- Toggling the same cells twice gives the display back. -/
theorem Drawing.Shows.twice {g g' : Drawing} {d : Display} {hit : Fin 64 → Fin 32 → Bool} (h : g.Shows d hit)
    (h' : g'.Shows g.display hit) : g'.display = d :=
  display_ext fun x y => by rw [h'.pixels, h.pixels, Bool.xor_assoc, Bool.xor_self, Bool.xor_false]

/-- The second drawing collides exactly where the first one turned a cell on. -/
theorem Drawing.Shows.collides_twice {g g' : Drawing} {d : Display} {hit : Fin 64 → Fin 32 → Bool} (h : g.Shows d hit)
    (h' : g'.Shows g.display hit) : g'.collision = true ↔ ∃ x y, hit x y = true ∧ pixel d x y = false := by
  rw [h'.collides]
  refine exists_congr fun x => exists_congr fun y => and_congr_right fun hxy => ?_
  rw [h.pixels, hxy, Bool.xor_true, Bool.not_eq_true']

end Machine
end Sys2Proof

open Sys2Proof Sys2Proof.Machine Sys2Proof.Claims

/-- Settles O52: the drawing toggles the covered cells, and collides exactly if one of them was on. -/
theorem drawTogglesCoveredCells : Obligations.DrawTogglesCoveredCells := by
  intro x y n s hidle
  obtain ⟨g, hex, hg⟩ := exec_drw_shows x y n hidle
  refine ⟨s.shown g, hex, rfl, fun px py => ⟨fun hc => ?_, fun hc => ?_⟩, ?_, fun k hk => s.reg_shown_other g hk,
    s.shown_only g⟩
  · exact (hg.pixels px py).trans (by rw [(s.drawHit_iff x y n px py).2 hc, Bool.xor_true])
  · exact (hg.pixels px py).trans (by rw [Bool.eq_false_iff.2 (mt (s.drawHit_iff x y n px py).1 hc), Bool.xor_false])
  · refine flagIs_shown s (hg.collides.trans ?_)
    simp only [State.drawHit_iff]

/-- Settles O54: the second draw toggles the same cells of the display that the first one has left. -/
theorem doubleDrawRestoresDisplay : Obligations.DoubleDrawRestoresDisplay := by
  intro x y n s t u hx hy hidle hst htu
  obtain ⟨g, hex, hg⟩ := exec_drw_shows x y n hidle
  obtain rfl := Host.Outcome.next.inj (hex.symm.trans hst)
  obtain ⟨g', hex', hg'⟩ := exec_drw_shows x y n (s := frameConsumedEvent (s.shown g)) rfl
  obtain rfl := Host.Outcome.next.inj (hex'.symm.trans htu)
  rw [s.drawHit_shown g hx hy] at hg'
  refine ⟨hg.twice hg', flagIs_shown _ ((hg.collides_twice hg').trans ?_)⟩
  simp only [State.drawHit_iff]
end

section
/-! PROOF. The other events and the ports (spec/70_reset_and_hazards.md sections 1 and 2, spec/60_exceptions.md sections 3 and 4,
spec/10_state.md section 7): what `Reset`, `Load`, `Tick` and `FrameConsumed` leave, the outputs as functions of the state, and the
order of the strobes at one clock edge. -/

namespace Sys2Proof

open Sys2Proof.Machine Sys2Proof.Claims

namespace Machine

/-! ## Reset -/

theorem resetByte_font (font : Font) (k : Fin 80) : resetByte font (0x050 + k.val) = font[k] := by
  rw [resetByte, dif_pos ⟨by omega, by omega⟩]
  simp

theorem resetByte_other (font : Font) {a : Nat} (h : a < 0x050 ∨ 0x0A0 ≤ a) : resetByte font a = 0 := by
  rw [resetByte, dif_neg (by omega)]

theorem hasResetValues_resetWith (font : Font) (n : Nat) : HasResetValues font (State.resetWith font n) where
  registers k := by simp [State.reg, State.resetWith]
  pc := rfl
  i := rfl
  sp := rfl
  stack k := by simp [State.resetWith]
  delayTimer := rfl
  soundTimer := rfl
  fontBytes k := resetByte_font font k
  otherBytes _ h := resetByte_other font h
  display := pixel_blankDisplay
  redraw := rfl
  keyboard k := by simp [State.keyDown, State.resetWith]
  fault := rfl

/-! ## Load -/

theorem read_writeBytes_of_getElem? {m : Memory} {a k : Nat} {bs : List Byte} {b : Byte} (h : bs[k]? = some b) :
    (m.writeBytes a bs).read (a + k) = b := by
  obtain ⟨hk, rfl⟩ := List.getElem?_eq_some_iff.1 h
  rw [Memory.read_writeBytes, dif_pos ⟨by omega, by omega⟩]
  simp

theorem read_writeBytes_outside (m : Memory) {a a' : Nat} {bs : List Byte} (h : a' < a ∨ a + bs.length ≤ a') :
    (m.writeBytes a bs).read a' = m.read a' := by
  rw [Memory.read_writeBytes, dif_neg (by omega)]

/-! ## Tick -/

theorem countDown_of_zero {b : Byte} (h : b.toNat = 0) : countDown b = b :=
  if_pos (BitVec.eq_of_toNat_eq h)

theorem countDown_of_pos {b : Byte} (h : 0 < b.toNat) : (countDown b).toNat + 1 = b.toNat := by
  rw [countDown_toNat, Nat.sub_add_cancel h]

/-! ## Ports -/

theorem framebufferRead_eq (s : State) (x : Fin 64) (y : Fin 32) :
    framebufferRead s (BitVec.ofNat 11 (y.val * 64 + x.val)) = pixel s.display x y := by
  have hn : (BitVec.ofNat 11 (y.val * 64 + x.val)).toFin.val = y.val * 64 + x.val := by
    have h : y.val * 64 + x.val < 2048 := by omega
    exact Nat.mod_eq_of_lt h
  rw [framebufferRead, pixelAt]
  congr 1 <;> apply Fin.ext <;> simp only [hn] <;> omega

theorem edgeBeforeStep_of_frameAck_alone {p : Inputs} (hl : p.ldWe = false) (hk : p.keyWe = false) (ha : p.frameAck = true)
    (s : State) : edgeBeforeStep p s = frameConsumedEvent s := by
  simp [edgeBeforeStep, hl, hk, ha]

theorem edgeBeforeStep_of_ldWe_alone {p : Inputs} (hl : p.ldWe = true) (hk : p.keyWe = false) (ha : p.frameAck = false)
    (s : State) : edgeBeforeStep p s = loadPortWrite p.ldAddr p.ldData s := by
  simp [edgeBeforeStep, hl, hk, ha]

theorem faultNumber_iff (c : FaultCode) :
    (faultNumber c = 0 ↔ c = .noFault) ∧ (faultNumber c = 1 ↔ c = .stackOverflow) ∧
      (faultNumber c = 2 ↔ c = .stackUnderflow) := by
  cases c <;> decide

/-! ## One clock edge -/

theorem clockEdge_of_rst {p : Inputs} (h : p.rst = true) (s : State) : clockEdge p s = .next (resetEvent s) := by
  rw [clockEdge, if_pos h]

theorem edgeAfterStep_of_tick {p : Inputs} (h : p.tick60 = true) (s : State) : edgeAfterStep p s = tickEvent s := by
  rw [edgeAfterStep, if_pos h]

/-- Without a tick the edge is the step after the strobes before it. -/
theorem clockEdge_eq_step {p : Inputs} (hr : p.rst = false) (hs : p.step = true) (ht : p.tick60 = false) (s : State) :
    clockEdge p s = step (edgeBeforeStep p s) := by
  obtain ⟨t, h⟩ := step_total (edgeBeforeStep p s)
  rw [clockEdge_of_step hr hs h, edgeAfterStep_of_no_tick ht, h]

/-! A byte loaded at `pc`. -/

theorem loadPortWrite_only_memory (a : BitVec 12) (b : Byte) (s : State) :
    loadPortWrite a b s = { s with memory := (loadPortWrite a b s).memory } := by
  unfold loadPortWrite
  split <;> rfl

theorem loadPortWrite_pc (a : BitVec 12) (b : Byte) (s : State) : (loadPortWrite a b s).pc = s.pc := by
  rw [loadPortWrite_only_memory]

theorem loadPortWrite_fault (a : BitVec 12) (b : Byte) (s : State) : (loadPortWrite a b s).fault = s.fault := by
  rw [loadPortWrite_only_memory]

theorem loadPortWrite_read_program {a : BitVec 12} (h : 0x200 ≤ a.toNat) (b : Byte) (s : State) (a' : Nat) :
    (loadPortWrite a b s).memory.read a' = if a' = a.toNat then b else s.memory.read a' := by
  simp only [loadPortWrite_read, h, true_and]

/-- The byte is the upper half of the word fetched: the lower half is at another address. -/
theorem fetch_loadPortWrite {a : BitVec 12} {s : State} (h : 0x200 ≤ a.toNat) (hpc : a.toNat = maskAddr s.pc) (b : Byte) :
    (loadPortWrite a b s).fetch = joinBytes b (s.memRead (s.pc + 1)) := by
  have hhi : (loadPortWrite a b s).memRead s.pc = b := (loadPortWrite_read_program h b s _).trans (if_pos hpc.symm)
  have hlo : (loadPortWrite a b s).memRead (s.pc + 1) = s.memRead (s.pc + 1) :=
    (loadPortWrite_read_program h b s _).trans (if_neg (hpc ▸ maskAddr_succ_ne s.pc))
  rw [State.fetch, State.memReadWord, loadPortWrite_pc, hhi, hlo]

theorem step_loadPortWrite {a : BitVec 12} {s : State} (hrun : s.fault = .noFault) (h : 0x200 ≤ a.toNat)
    (hpc : a.toNat = maskAddr s.pc) (b : Byte) :
    step (loadPortWrite a b s) =
      exec (decode (joinBytes b (s.memRead (s.pc + 1)))) { loadPortWrite a b s with pc := s.pc + 2 } := by
  rw [step_running ((loadPortWrite_fault a b s).trans hrun), fetch_loadPortWrite h hpc, State.advance, loadPortWrite_pc]

/-! Without a load write, the strobes before the step leave the instruction that the step runs. -/

section
variable {p : Inputs} (hl : p.ldWe = false) {s : State}
include hl

theorem edgeBeforeStep_fetch : (edgeBeforeStep p s).fetch = s.fetch := by
  rw [edgeBeforeStep_frame hl s]; rfl

theorem edgeBeforeStep_reg (x : Reg) : (edgeBeforeStep p s).reg x = s.reg x := by
  rw [edgeBeforeStep_frame hl s]; rfl

theorem edgeBeforeStep_pc : (edgeBeforeStep p s).pc = s.pc := by rw [edgeBeforeStep_frame hl s]

theorem edgeBeforeStep_fault : (edgeBeforeStep p s).fault = s.fault := by rw [edgeBeforeStep_frame hl s]

theorem edgeBeforeStep_delayTimer : (edgeBeforeStep p s).delayTimer = s.delayTimer := by rw [edgeBeforeStep_frame hl s]

theorem edgeBeforeStep_soundTimer : (edgeBeforeStep p s).soundTimer = s.soundTimer := by rw [edgeBeforeStep_frame hl s]

theorem edgeBeforeStep_keyDown (hk : p.keyWe = true) (j : Key) :
    (edgeBeforeStep p s).keyDown j = if j = p.keyIdx then p.keyVal else s.keyDown j := by
  rw [← keyWriteEvent_keyDown]
  simp only [edgeBeforeStep, hl, hk]
  cases p.frameAck <;> rfl

theorem step_edgeBeforeStep (hrun : s.fault = .noFault) :
    step (edgeBeforeStep p s) = exec (decode s.fetch) (edgeBeforeStep p s).advance := by
  rw [step_running ((edgeBeforeStep_fault hl).trans hrun), edgeBeforeStep_fetch hl]

/-- The tick comes after the instruction. -/
theorem clockEdge_step_tick {t : State} {i : Instr} (hrun : s.fault = .noFault) (hi : decode s.fetch = i) (hr : p.rst = false)
    (hs : p.step = true) (ht : p.tick60 = true) (h : exec i (edgeBeforeStep p s).advance = .next t) :
    clockEdge p s = .next (tickEvent t) := by
  rw [clockEdge_of_step hr hs ((step_edgeBeforeStep hl hrun).trans (hi ▸ h)), edgeAfterStep_of_tick ht]

/-- The key pressed at the edge is the only one down, so the wait takes it. -/
theorem exec_ldKey_pressed (hk : p.keyWe = true) (hv : p.keyVal = true) (hup : ∀ k, s.keyDown k = false) (x : Reg) :
    exec (.ldKey x) (edgeBeforeStep p s).advance =
      .next ((edgeBeforeStep p s).advance.setReg x (BitVec.ofNat 8 p.keyIdx.val)) := by
  refine execLdKey_of_lowest x ?_ fun j hj => ?_
  · rw [State.advance_keyDown, edgeBeforeStep_keyDown hl hk, if_pos rfl, hv]
  · rw [State.advance_keyDown, edgeBeforeStep_keyDown hl hk, if_neg hj.ne, hup]

end

end Machine

namespace Claims

/-! The clauses of the order of strobes. -/

section
variable {p : Inputs} {s : State} {x y : Reg} {n : Fin 16} (hrun : s.fault = .noFault) (hr : p.rst = false) (hs : p.step = true)
include hrun hr hs

theorem load_before_step (hl : p.ldWe = true) (hk : p.keyWe = false) (ha : p.frameAck = false) (ht : p.tick60 = false)
    (h200 : 0x200 ≤ p.ldAddr.toNat) (hpc : p.ldAddr.toNat = s.pc.toNat % 4096) :
    ∃ u : State, u = { s with memory := u.memory } ∧
      (∀ a, u.memory.read a = if a = p.ldAddr.toNat then p.ldData else s.memory.read a) ∧
      clockEdge p s = exec (decode (joinBytes p.ldData (s.memRead (s.pc + 1)))) { u with pc := s.pc + 2 } := by
  refine ⟨_, loadPortWrite_only_memory p.ldAddr p.ldData s, loadPortWrite_read_program h200 p.ldData s, ?_⟩
  rw [clockEdge_eq_step hr hs ht, edgeBeforeStep_of_ldWe_alone hl hk ha, step_loadPortWrite hrun h200 hpc]

theorem ack_before_step (hi : decode s.fetch = .drw x y n) (hl : p.ldWe = false) (hk : p.keyWe = false) (ha : p.frameAck = true)
    (ht : p.tick60 = false) :
    ∃ t, clockEdge p s = .next t ∧ exec (.drw x y n) { s with pc := s.pc + 2, isRedrawNeeded := false } = .next t ∧
      t.pc = s.pc + 2 ∧ t.isRedrawNeeded = true := by
  obtain ⟨g, hex, -⟩ := exec_drw_shows x y n (s := { s with pc := s.pc + 2, isRedrawNeeded := false }) rfl
  refine ⟨_, ?_, hex, rfl, rfl⟩
  rw [clockEdge_eq_step hr hs ht, step_edgeBeforeStep hl hrun, hi, edgeBeforeStep_of_frameAck_alone hl hk ha]
  exact hex

variable (hl : p.ldWe = false) (ht : p.tick60 = true)
include hl ht

theorem key_before_step (hi : decode s.fetch = .ldKey x) (hup : ∀ k, s.keyDown k = false) (hk : p.keyWe = true)
    (hv : p.keyVal = true) :
    ∃ t, clockEdge p s = .next t ∧ (t.reg x).toNat = p.keyIdx.val ∧ t.pc = s.pc + 2 ∧
      t.delayTimer.toNat = s.delayTimer.toNat - 1 := by
  refine ⟨_, clockEdge_step_tick hl hrun hi hr hs ht (exec_ldKey_pressed hl hk hv hup x), ?_, ?_, ?_⟩
  · exact (congrArg BitVec.toNat (State.reg_setReg_same _ x _)).trans (keyByte_toNat _)
  · exact congrArg (· + 2) (edgeBeforeStep_pc hl)
  · exact (countDown_toNat _).trans (congrArg (·.toNat - 1) (edgeBeforeStep_delayTimer hl))

theorem tick_after_ldDelay (hi : decode s.fetch = .ldDelay x) :
    ∃ t, clockEdge p s = .next t ∧ t.delayTimer.toNat = (s.reg x).toNat - 1 ∧ t.soundTimer.toNat = s.soundTimer.toNat - 1 := by
  refine ⟨_, clockEdge_step_tick hl hrun hi hr hs ht (exec_ldDelay x _), ?_, ?_⟩
  · exact (countDown_toNat _).trans (congrArg (·.toNat - 1) (edgeBeforeStep_reg hl x))
  · exact (countDown_toNat _).trans (congrArg (·.toNat - 1) (edgeBeforeStep_soundTimer hl))

theorem tick_after_ldFromDelay (hi : decode s.fetch = .ldFromDelay x) :
    ∃ t, clockEdge p s = .next t ∧ t.reg x = s.delayTimer ∧ t.delayTimer.toNat = s.delayTimer.toNat - 1 := by
  refine ⟨_, clockEdge_step_tick hl hrun hi hr hs ht (exec_ldFromDelay x _), ?_, ?_⟩
  · exact (State.reg_setReg_same _ x _).trans (edgeBeforeStep_delayTimer hl)
  · exact (countDown_toNat _).trans (congrArg (·.toNat - 1) (edgeBeforeStep_delayTimer hl))

end

end Claims
end Sys2Proof

open Sys2Proof Sys2Proof.Machine Sys2Proof.Claims

/-- Settles O26: every field of the reset state, memory by its reset contents. -/
theorem resetLeavesListedValues : Obligations.ResetLeavesListedValues :=
  ⟨fun s => hasResetValues_resetWith s.memory.font s.draws, hasResetValues_resetWith fontDefault 0⟩

/-- Settles O27: an image that fits is written from 0x200 up, and one that does not changes nothing. -/
theorem loadCopiesImageOrFails : Obligations.LoadCopiesImageOrFails := by
  refine fun bytes s => ⟨fun h => ?_, fun h => ?_⟩
  · exact ⟨_, loadEvent_fits ((loadFits_iff _).2 h) s, rfl, fun k b hb => read_writeBytes_of_getElem? hb,
      fun a ha => read_writeBytes_outside s.memory ha⟩
  · refine loadEvent_fails (Bool.eq_false_iff.2 fun hf => ?_) s
    have := (loadFits_iff _).1 hf
    omega

/-- Settles O28: the countdown of each timer. -/
theorem tickCountsTimersDown : Obligations.TickCountsTimersDown :=
  fun s => ⟨tickEvent s, rfl, rfl, countDown_of_zero, countDown_of_pos, countDown_of_zero, countDown_of_pos⟩

/-- Settles O30: the acknowledge alone is the event, and the read port's index is the row-major one. -/
theorem rendererInterface : Obligations.RendererInterface := by
  refine ⟨fun p s hr hl hk hs ht ha => ?_, fun s => ⟨rfl, rfl, framebufferRead_eq s⟩⟩
  rw [clockEdge_of_no_step hr hs, edgeAfterStep_of_no_tick ht, edgeBeforeStep_of_frameAck_alone hl hk ha]
  rfl

/-- Settles O31: each output in terms of its field. -/
theorem outputPortsShowState : Obligations.OutputPortsShowState :=
  fun s => ⟨outputs_sndOn_iff s, s.halted_iff, faultNumber_iff s.fault⟩

/-- Settles O32: what each strobe before the step leaves is what the step runs on, and the tick takes what the step leaves. -/
theorem coincidentStrobesAreOrdered : Obligations.CoincidentStrobesAreOrdered :=
  ⟨fun _ s hr => clockEdge_of_rst hr s,
    fun _ _ hrun hr hl hk ha hs ht h200 hpc => load_before_step hrun hr hs hl hk ha ht h200 hpc,
    fun _ _ _ hrun hi hup hr hl hk hv hs ht => key_before_step hrun hr hs hl ht hi hup hk hv,
    fun _ _ _ _ _ hrun hi _ hr hl hk ha hs ht => ack_before_step hrun hr hs hi hl hk ha ht,
    fun _ _ _ hrun hi hr hl hs ht => tick_after_ldDelay hrun hr hs hl ht hi,
    fun _ _ _ hrun hi hr hl hs ht => tick_after_ldFromDelay hrun hr hs hl ht hi⟩
end
